-- ==== Sys2Proof/Word.lean ====
section
/-! DEFINITION. The word types of the block: the value, the buffer element and the command word. -/

namespace Sys2Proof

/-- A `u64`: the value that is encoded and decoded (00_scope.md R6, `XLEN` = 64; R7). -/
abbrev Word := BitVec 64

/-- A `u8`: one element of the Cursor Buffer (00_scope.md R6, `BYTE` = 8). -/
abbrev Byte := BitVec 8

/-- The command word `C` of 30_encoding.md R59: `op` in bits 65:64, `value` in bits 63:0. -/
abbrev CommandWord := BitVec 66

end Sys2Proof
end

