-- ==== Sys2Proof/Config.lean ====
section
/-! DEFINITION. The implementation parameters of 00_scope.md R6 that are fixed numbers, and the two launch values
a reset state has to name. The tier thresholds and the sentinel bytes stand with the functions that use them
(Machine/Operands.lean). `AW` has no entry: R6 has offsets and sizes unbounded, "no rule depends on it". -/

namespace Sys2Proof

/-- Width of a command word in bits (30_encoding.md R59). -/
def Config.commandBits : Nat := 66

/-- Width of the longest wire format, W9, in bits (30_encoding.md R52, R53). -/
def Config.longestWireBits : Nat := 72

/-- `OFF` in the reset state. DESIGN CHOICE, unsafe, notes/assumptions/2.md: R26 and R118 leave it to the host's
launch state. -/
def Config.resetOff : Nat := 0

/-- `CAP` in the reset state. DESIGN CHOICE, unsafe, notes/assumptions/2.md: `CAP` is the open parameter of R6. With
0 no buffer is attached yet and no byte of `MEM` exists, so nothing is assumed of its contents. -/
def Config.resetCap : Nat := 0

end Sys2Proof
end

