-- ==== Sys2Proof/Machine/State.lean ====
section
/-! DEFINITION. The state: the Cursor Buffer `(MEM, OFF, CAP)` (10_state.md R14 to R16), the host's presented inputs,
the responses given, and the transfers made on the buffer interface (R131, R132); the reasons a step can stop; the
reset state. The codec itself holds no state (R13). -/

namespace Sys2Proof.Machine

/-- `MEM` as a list of offsets and bytes, its canonical form in Machine/Memory.lean. -/
abbrev Memory := List Host.Cell

/-- What the host may do to the buffer between commands (20_memory.md R47, 30_encoding.md R66). -/
inductive HostMove where
  /-- `HOST.SEEK offset`: `OFF <- offset`. -/
  | seek (offset : Nat)
  /-- `HOST.FILL offset, bytes`: write the bytes from `offset`, `OFF` unchanged. -/
  | fill (offset : Nat) (bytes : List Byte)
  /-- Grow `CAP` by as many bytes as are given. The new bytes hold what the host's input says they hold
  (notes/assumptions/5.md). -/
  | grow (bytes : List Byte)
  /-- Shrink `CAP` to the number given; the bytes past it exist no more. -/
  | shrink (capacity : Nat)
  /-- Swap the contents wholesale: one byte for every offset. -/
  | swap (bytes : List Byte)
  /-- Read a byte: the buffer is plain storage, nothing changes (R39). -/
  | peek (offset : Nat)
  deriving DecidableEq, Repr

/-- One entry of a run: "a finite list of commands and host moves" (70_reset_and_hazards.md R130). -/
inductive Input where
  /-- A command word on the ports `cmd_op` and `cmd_value` (10_state.md R131). -/
  | command (c : CommandWord)
  /-- A host move; it has no command word (30_encoding.md R66). -/
  | host (m : HostMove)
  deriving DecidableEq, Repr

/-- `status` of a response (10_state.md R19). -/
inductive Status where
  | ok
  | insufficientBuffer
  deriving DecidableEq, Repr

/-- A response (10_state.md R19): a field outside its "valid when" holds no value, so it is an `Option`
(93_implementation_defined.md U4). -/
structure Response where
  status : Status
  result : Option Word
  size : Option (BitVec 4)
  deriving DecidableEq, Repr

/-- One reservation as the buffer interface of 10_state.md R132 carries it: `rsv_n`, `rsv_write`, `rsv_ok`, and the
lanes of `rsv_wdata` or `rsv_rdata` below `n` when it was granted (lane `i` is the byte at `base + i`). -/
structure Transfer where
  n : BitVec 4
  write : Bool
  ok : Bool
  lanes : List Byte
  deriving DecidableEq, Repr

/-- The machine: the codec attached to one Cursor Buffer (70_reset_and_hazards.md R124). -/
structure State where
  /-- `MEM`, 10_state.md R14. -/
  mem : Memory
  /-- `OFF`, 10_state.md R15: one offset for reading and writing, unbounded (00_scope.md R6). -/
  off : Nat
  /-- `CAP`, 10_state.md R16. -/
  cap : Nat
  /-- What the host presents, the next first (R130, R131). -/
  pending : List Input
  /-- The responses given, oldest first (R130); no command reads them (R20, R22). -/
  responses : List Response
  /-- The transfers made on the buffer interface, oldest first (R132); nothing reads them
  (notes/assumptions/10.md). -/
  bus : List Transfer
  deriving DecidableEq, Repr

/-- Reasons for a fault. The block has none (60_exceptions.md R104): this one guards the primitives. -/
inductive Fault where
  /-- Raised by `memRead` and `memWrite` at an offset that does not exist, at or above `CAP` (20_memory.md R40). No
  command reaches it, since it touches reserved spans only (R32). Safe. -/
  | noSuchOffset
  deriving DecidableEq, Repr

/-- Reasons for a refusal. -/
inductive Refusal where
  /-- Raised by `exec` for an instruction that has no meaning yet. Safe. -/
  | notModelled (mnemonic : String)
  /-- Raised by the meaning of command code `0b11`, which the spec has a model refuse (30_encoding.md R63). Safe. -/
  | reservedCommand
  /-- Raised by a step and by `reserve` in a state with `OFF > CAP`, which the spec has a model refuse (10_state.md
  R17, 93_implementation_defined.md U6). Safe. -/
  | offsetPastCapacity
  /-- Raised by a host move that breaks what the spec requires of it (20_memory.md R47, 30_encoding.md R66). Safe. -/
  | hostMoveOutsideContract
  /-- Raised by a step when the host presents nothing: the run has ended (70_reset_and_hazards.md R130). Safe. -/
  | noInputPresented
  deriving DecidableEq, Repr

/-- The machine right after reset: the codec has nothing to reset (10_state.md R26, 70_reset_and_hazards.md R117), no
response has been given and no command presented. `OFF` and `CAP` are the host's to supply; their values here are
notes/assumptions/2.md's. -/
def State.reset : State where
  mem := []
  off := Config.resetOff
  cap := Config.resetCap
  pending := []
  responses := []
  bus := []

end Sys2Proof.Machine
end

