-- ==== Sys2Proof/Machine/Flags.lean ====
section
/-! DEFINITION. The block has no flags (10_state.md R22): the outcome of a command is the `status` of its response.
Here are the responses a command can give and the pins they stand on. -/

namespace Sys2Proof.Machine

/-- The code of `status`, 1 bit: 0 `OK`, 1 `InsufficientBuffer` (10_state.md R19, 60_exceptions.md R100). -/
def Status.code : Status → BitVec 1
  | .ok => 0
  | .insufficientBuffer => 1

/-- `Ok` with no value, the success of `ENC` (10_state.md R19). -/
def okResponse : Response := ⟨.ok, none, none⟩

/-- `Ok(x)` of `DEC` (41_decode.md R81). -/
def resultResponse (value : Word) : Response := ⟨.ok, some value, none⟩

/-- `Ok(size = n)` of `SIZEOF` (42_sizeof.md R87). -/
def sizeResponse (size : BitVec 4) : Response := ⟨.ok, none, some size⟩

/-- `InsufficientBuffer`, the block's one failure, with no diagnostic field (60_exceptions.md R100, R102). -/
def insufficientBufferResponse : Response := ⟨.insufficientBuffer, none, none⟩

/-- The three response pins of 10_state.md R131: `rsp_status`, `rsp_result`, `rsp_size`, no value where the field is
not valid. -/
def responsePins (r : Response) : BitVec 1 × Option Word × Option (BitVec 4) := (r.status.code, r.result, r.size)

/-- What R19 lets a response hold: a `result` only with `OK`, a `size` only of 1, 3, 5 or 9 with `OK`, never both. -/
abbrev Response.legal (r : Response) : Prop :=
  r = okResponse ∨ r = insufficientBufferResponse ∨ (r.status = .ok ∧ r.result.isSome ∧ r.size = none) ∨
    r = sizeResponse 1 ∨ r = sizeResponse 3 ∨ r = sizeResponse 5 ∨ r = sizeResponse 9

end Sys2Proof.Machine
end

