-- ==== Sys2Proof/Machine/Memory.lean ====
section
/-! DEFINITION. `MEM` by byte: reading and writing the list of cells, and its canonical form. -/

namespace Sys2Proof.Machine

/-- What an offset with no cell reads as. DESIGN CHOICE, notes/assumptions/1.md: with it every content of `MEM` is one
canonical list and every such list a content of `MEM`. -/
def unlistedByte : Byte := 0x00

/-- The canonical form: offsets strictly rising, no cell that holds `unlistedByte`. -/
abbrev Memory.wf (m : Memory) : Prop :=
  m.Pairwise (fun x y => x.1 < y.1) ∧ ∀ c ∈ m, c.2 ≠ unlistedByte

/-- `MEM[a]`. -/
def getByte (a : Nat) : Memory → Byte
  | [] => unlistedByte
  | (x, b) :: m => if x = a then b else getByte a m

/-- The cells of a byte at an offset: none for `unlistedByte`. -/
def cellAt (a : Nat) (b : Byte) (m : Memory) : Memory := if b = unlistedByte then m else (a, b) :: m

/-- `MEM[a] <- b`. -/
def setByte (a : Nat) (b : Byte) : Memory → Memory
  | [] => cellAt a b []
  | (x, c) :: m =>
    if a < x then cellAt a b ((x, c) :: m)
    else if a = x then cellAt a b m
    else (x, c) :: setByte a b m

/-- The `n` bytes from `a`, lowest offset first. -/
def getBytes (a : Nat) : Nat → Memory → List Byte
  | 0, _ => []
  | n + 1, m => getByte a m :: getBytes (a + 1) n m

/-- A sequence of bytes written from `a`: a wide access is the sequence of its byte accesses (20_memory.md R49). -/
def setBytes (a : Nat) : List Byte → Memory → Memory
  | [], m => m
  | b :: bs, m => setBytes (a + 1) bs (setByte a b m)

/-- The bytes below a capacity. -/
def keepBelow (capacity : Nat) (m : Memory) : Memory := m.filter (fun c => c.1 < capacity)

end Sys2Proof.Machine
end

