-- ==== Sys2Proof/Machine/Operands.lean ====
section
/-! DEFINITION. The sub-blocks of 10_state.md R27 as pure functions: `prefix_select`, `little_endian_serializer`,
`prefix_parse`, `little_endian_deserializer` and `sizeOf_lut`. All comparisons are unsigned, on 64 bits and strict
(42_sizeof.md R94). -/

namespace Sys2Proof.Machine

/-! ### prefix_select -/

/-- The four prefix-selected widths, T1 to T4 (00_scope.md R12). -/
inductive Tier where
  | t1 | t2 | t3 | t4
  deriving DecidableEq, Repr

/-- `Tier(value)`, 40_encode.md R68: the first condition that holds, strict less-than at each boundary
(90_conflicts.md C3). -/
def tier (value : Word) : Tier :=
  if value < 0xFD#64 then .t1
  else if value < 0xFFFF#64 then .t2
  else if value < 0xFFFFFFFF#64 then .t3
  else .t4

/-- `Prefix(value)`, 40_encode.md R69. -/
def prefixByte (value : Word) : Byte :=
  match tier value with
  | .t1 => value.setWidth 8
  | .t2 => 0xFD#8
  | .t3 => 0xFE#8
  | .t4 => 0xFF#8

/-- `PayloadBytes(tier)`, 40_encode.md R69. T3 has 4 bytes (90_conflicts.md C1). -/
def payloadBytes : Tier → Nat
  | .t1 => 0
  | .t2 => 2
  | .t3 => 4
  | .t4 => 8

/-! ### little_endian_serializer -/

/-- Byte `i` of a value: `v[8i+7:8i]`, 00_scope.md R8. -/
def byteOf (v : Word) (i : Nat) : Byte := v.extractLsb' (8 * i) 8

/-- `Payload(value, n)`, 40_encode.md R70: the low `n` bytes of `v`, least significant first (20_memory.md R33). -/
def leBytes (v : Word) (n : Nat) : List Byte := (List.range n).map (byteOf v)

/-! ### prefix_parse -/

/-- `PayloadLen(p)`, 41_decode.md R78 and 30_encoding.md R55. -/
def payloadLen (p : Byte) : Nat :=
  if p = 0xFD#8 then 2
  else if p = 0xFE#8 then 4
  else if p = 0xFF#8 then 8
  else 0

/-- `WireLen(b0)`, 30_encoding.md R55. -/
def wireLen (p : Byte) : Nat := 1 + payloadLen p

/-! ### little_endian_deserializer -/

/-- The natural number held little-endian in a sequence of bytes, the sum of 20_memory.md R34 and 41_decode.md
R79. -/
def leValue : List Byte → Nat
  | [] => 0
  | b :: bs => b.toNat + 2 ^ 8 * leValue bs

/-- `Value(bytes)`, 41_decode.md R79: zero-extended to 64 bits, never sign-extended. -/
def payloadValue (bytes : List Byte) : Word := BitVec.ofNat 64 (leValue bytes)

/-- `Decoded(p, payload)`, 41_decode.md R80. A sentinel prefix adds nothing to the value. -/
def decodedValue (p : Byte) (payload : List Byte) : Word :=
  if payloadLen p = 0 then p.setWidth 64 else payloadValue payload

/-! ### sizeOf_lut -/

/-- `SizeOf(value)`, 42_sizeof.md R88, in the 4-bit field of 10_state.md R19. -/
def encodedSize (value : Word) : BitVec 4 :=
  if value < 0xFD#64 then 1#4
  else if value < 0xFFFF#64 then 3#4
  else if value < 0xFFFFFFFF#64 then 5#4
  else 9#4

end Sys2Proof.Machine
end

