-- ==== Sys2Proof/Machine/Ops.lean ====
section
/-! DEFINITION. The shared operations: `Reserve`, `MemRead`, `MemWrite` (20_memory.md R29, R34, R35), the transfers on
the buffer interface, giving a response, and the one failure (60_exceptions.md R101). -/

namespace Sys2Proof.Machine

/-- The outcome of an operation or a command. -/
abbrev Out := Host.Outcome State Fault Refusal

/-- What an operation on the buffer answers. -/
inductive Access (α : Type) where
  /-- `Some`: the answer and the state after it. -/
  | granted (a : α) (s : State)
  /-- `None`: too few bytes remain. -/
  | denied (s : State)
  | fault (f : Fault)
  | refused (r : Refusal)
  deriving DecidableEq, Repr

/-! ### Responses -/

/-- The command on the port is done: its response is given and the next input may be taken (10_state.md R131,
70_reset_and_hazards.md R123). -/
def State.respond (r : Response) (s : State) : State :=
  { s with pending := s.pending.tail, responses := s.responses ++ [r] }

/-- `raise InsufficientBuffer`, 60_exceptions.md R101: nothing is undone, nothing saved, no control transfer (R107);
the failure is the response. -/
def raiseInsufficientBuffer (s : State) : Out := .next (s.respond insufficientBufferResponse)

/-- Go on with what was granted, or raise `InsufficientBuffer` where the reservation was denied. -/
def Access.orRaise {α : Type} (x : Access α) (k : α → State → Out) : Out :=
  match x with
  | .granted a s => k a s
  | .denied s => raiseInsufficientBuffer s
  | .fault f => .fault f
  | .refused r => .refused r

/-! ### Reserve -/

/-- `Reserve(n)`, 20_memory.md R29. A state with `OFF > CAP` gets no meaning (93_implementation_defined.md U6). -/
def reserve (n : Nat) (s : State) : Access Nat :=
  if s.cap < s.off then .refused .offsetPastCapacity
  else if n ≤ s.cap - s.off then .granted s.off { s with off := s.off + n }
  else .denied s

/-! ### MemRead and MemWrite -/

/-- The bytes of a span, lowest offset first. -/
def readSpan (addr n : Nat) (s : State) : Except Fault (List Byte) :=
  if addr + n ≤ s.cap then .ok (getBytes addr n s.mem) else .error .noSuchOffset

/-- `MemRead(addr, n)`, 20_memory.md R34. -/
def memRead (addr n : Nat) (s : State) : Except Fault Nat := (readSpan addr n s).map leValue

/-- `MemWrite(addr, n, v)`, 20_memory.md R35. -/
def memWrite (addr n : Nat) (v : Word) (s : State) : Except Fault State :=
  if addr + n ≤ s.cap then .ok { s with mem := setBytes addr (leBytes v n) s.mem } else .error .noSuchOffset

/-! ### The buffer interface -/

/-- One transfer seen on the buffer interface (10_state.md R132). -/
def State.transfer (n : Nat) (write ok : Bool) (lanes : List Byte) (s : State) : State :=
  { s with bus := s.bus ++ [⟨BitVec.ofNat 4 n, write, ok, lanes⟩] }

/-- `Reserve(n)` and, when granted, `MemWrite(base, n, v)` on the span (40_encode.md R71). -/
def store (n : Nat) (v : Word) (s : State) : Access Unit :=
  match reserve n s with
  | .granted base s₁ =>
    match memWrite base n v s₁ with
    | .ok s₂ => .granted () (s₂.transfer n true true (leBytes v n))
    | .error f => .fault f
  | .denied s₁ => .denied (s₁.transfer n true false [])
  | .fault f => .fault f
  | .refused r => .refused r

/-- `Reserve(n)` and, when granted, the bytes of the span, which `MemRead(base, n)` reads (41_decode.md R81). -/
def load (n : Nat) (s : State) : Access (List Byte) :=
  match reserve n s with
  | .granted base s₁ =>
    match readSpan base n s₁ with
    | .ok bytes => .granted bytes (s₁.transfer n false true bytes)
    | .error f => .fault f
  | .denied s₁ => .denied (s₁.transfer n false false [])
  | .fault f => .fault f
  | .refused r => .refused r

/-- A read transfer whose bytes are known: `Reserve(n)` and, when granted, these lanes. -/
def loadKnown (n : Nat) (lanes : List Byte) (s : State) : Access Unit :=
  match reserve n s with
  | .granted _ s₁ => .granted () (s₁.transfer n false true lanes)
  | .denied s₁ => .denied (s₁.transfer n false false [])
  | .fault f => .fault f
  | .refused r => .refused r

/-- The decoder's transaction on an encoding with first byte `b0` and these payload bytes: the reservations of
20_memory.md R31 and the value of 41_decode.md R80. -/
def takeEncoding (b0 : Byte) (payload : List Byte) (s : State) : Out :=
  (loadKnown 1 [b0] s).orRaise fun _ s₁ =>
    if payloadLen b0 = 0 then .next (s₁.respond (resultResponse (decodedValue b0 payload)))
    else (loadKnown (payloadLen b0) payload s₁).orRaise fun _ s₂ =>
      .next (s₂.respond (resultResponse (decodedValue b0 payload)))

end Sys2Proof.Machine
end

