-- ==== Sys2Proof/Machine/Decoder.lean ====
section
/-! DEFINITION. The decode family: `DEC` (41_decode.md). -/

namespace Sys2Proof.Machine

/-- `DEC`, 41_decode.md R81: the prefix byte through one reservation, then the payload its length calls for through
one more; a consumed prefix stays consumed (R83). -/
def execDec (s : State) : Out :=
  (load 1 s).orRaise fun first s₁ =>
    let p : Byte := BitVec.ofNat 8 (leValue first)
    if payloadLen p = 0 then .next (s₁.respond (resultResponse (decodedValue p [])))
    else (load (payloadLen p) s₁).orRaise fun payload s₂ =>
      .next (s₂.respond (resultResponse (decodedValue p payload)))

end Sys2Proof.Machine
end

