-- ==== Sys2Proof/Machine/Encode.lean ====
section
/-! DEFINITION. The encode family: `ENC` (40_encode.md). -/

namespace Sys2Proof.Machine

/-- `ENC value`, 40_encode.md R71: the prefix byte through one reservation, then for T2 to T4 the payload through one
more; a byte already written stays written (R73). -/
def execEnc (value : Word) (s : State) : Out :=
  (store 1 ((prefixByte value).setWidth 64) s).orRaise fun _ s₁ =>
    if payloadBytes (tier value) = 0 then .next (s₁.respond okResponse)
    else (store (payloadBytes (tier value)) value s₁).orRaise fun _ s₂ => .next (s₂.respond okResponse)

end Sys2Proof.Machine
end

