-- ==== Sys2Proof/Machine/Reserved.lean ====
section
/-! DEFINITION. The reserved command code `0b11` (30_encoding.md R63). -/

namespace Sys2Proof.Machine

/-- Command code `0b11`: "The block gives it no meaning. A model refuses it" (30_encoding.md R63). -/
def execReservedOp3 (_s : State) : Out := .refused .reservedCommand

end Sys2Proof.Machine
end

