-- ==== Sys2Proof/Machine/SizeOf.lean ====
section
/-! DEFINITION. The size family: `SIZEOF` (42_sizeof.md). -/

namespace Sys2Proof.Machine

/-- `SIZEOF value`, 42_sizeof.md R87: always `OK`, no buffer interaction. -/
def execSizeof (value : Word) (s : State) : Out := .next (s.respond (sizeResponse (encodedSize value)))

end Sys2Proof.Machine
end

