-- ==== Sys2Proof/Machine/Wire.lean ====
section
/-! DEFINITION. The wire formats of the opcode table (30_encoding.md R52, 41_decode.md R80): what the decoder does on
an encoding of each format. `DEC` is this on the encoding at `OFF` (notes/assumptions/8.md). -/

namespace Sys2Proof.Machine

/-- W1, `0x00` to `0x7F`: the first byte is the value. -/
def execW1_0 (b0 : Byte) (s : State) : Out := takeEncoding b0 [] s

/-- W1, `0x80` to `0xBF`. -/
def execW1_1 (b0 : Byte) (s : State) : Out := takeEncoding b0 [] s

/-- W1, `0xC0` to `0xDF`. -/
def execW1_2 (b0 : Byte) (s : State) : Out := takeEncoding b0 [] s

/-- W1, `0xE0` to `0xEF`. -/
def execW1_3 (b0 : Byte) (s : State) : Out := takeEncoding b0 [] s

/-- W1, `0xF0` to `0xF7`. -/
def execW1_4 (b0 : Byte) (s : State) : Out := takeEncoding b0 [] s

/-- W1, `0xF8` to `0xFB`. -/
def execW1_5 (b0 : Byte) (s : State) : Out := takeEncoding b0 [] s

/-- W1, `0xFC`. -/
def execW1_6 (b0 : Byte) (s : State) : Out := takeEncoding b0 [] s

/-- W3: `0xFD` and two payload bytes, widened to 64 bits. -/
def execW3 (payload : BitVec 16) (s : State) : Out := takeEncoding 0xFD#8 (leBytes (payload.setWidth 64) 2) s

/-- W5: `0xFE` and four payload bytes, widened to 64 bits. -/
def execW5 (payload : BitVec 32) (s : State) : Out := takeEncoding 0xFE#8 (leBytes (payload.setWidth 64) 4) s

/-- W9: `0xFF` and eight payload bytes. -/
def execW9 (payload : BitVec 64) (s : State) : Out := takeEncoding 0xFF#8 (leBytes payload 8) s

end Sys2Proof.Machine
end

