-- ==== Sys2Proof/Syntax.lean ====
section
/-! DEFINITION. The instructions: one constructor per row of spec/opcode_table.json. The first four rows are the
codes of the command word (30_encoding.md R59, R63); the other ten are the wire formats by first byte (R52, R54),
which `ENC` writes and `DEC` reads. -/

namespace Sys2Proof

/-- One row of the opcode table. A wire-format constructor stands for the decoder's transaction on an encoding of that
format (notes/assumptions/8.md). -/
inductive Instr where
  /-- `SIZEOF value`, R87. -/
  | sizeof (value : Word)
  /-- `ENC value`, R71. -/
  | enc (value : Word)
  /-- `DEC`, R81; the word's `value` field is ignored (R59, R63), so the abstract command has no operand (R18). -/
  | dec
  /-- Command code `0b11`: reserved, refused by the model, R63. -/
  | reservedOp3
  /-- Wire format W1 with `b0` in `0x00` to `0x7F`, R52, R54. -/
  | w1_0 (b0 : Byte)
  /-- Wire format W1 with `b0` in `0x80` to `0xBF`. -/
  | w1_1 (b0 : Byte)
  /-- Wire format W1 with `b0` in `0xC0` to `0xDF`. -/
  | w1_2 (b0 : Byte)
  /-- Wire format W1 with `b0` in `0xE0` to `0xEF`. -/
  | w1_3 (b0 : Byte)
  /-- Wire format W1 with `b0` in `0xF0` to `0xF7`. -/
  | w1_4 (b0 : Byte)
  /-- Wire format W1 with `b0` in `0xF8` to `0xFB`. -/
  | w1_5 (b0 : Byte)
  /-- Wire format W1 with `b0` = `0xFC`. -/
  | w1_6 (b0 : Byte)
  /-- Wire format W3: `0xFD`, then `E[23:8]` = `value[15:0]`, R52, R53. -/
  | w3 (payload : BitVec 16)
  /-- Wire format W5: `0xFE`, then `E[39:8]` = `value[31:0]`. -/
  | w5 (payload : BitVec 32)
  /-- Wire format W9: `0xFF`, then `E[71:8]` = `value[63:0]`. -/
  | w9 (payload : BitVec 64)
  deriving DecidableEq, Repr

end Sys2Proof
end

