-- ==== Sys2Proof/Machine/Dispatch.lean ====
section
/-! DEFINITION. One arm per row of the opcode table. -/

namespace Sys2Proof.Machine

def exec (i : Instr) (s : State) : Host.Outcome State Fault Refusal :=
  match i with
  | .sizeof value => Sys2Proof.Machine.execSizeof value s
  | .enc value => Sys2Proof.Machine.execEnc value s
  | .dec => Sys2Proof.Machine.execDec s
  | .reservedOp3 => Sys2Proof.Machine.execReservedOp3 s
  | .w1_0 b0 => Sys2Proof.Machine.execW1_0 b0 s
  | .w1_1 b0 => Sys2Proof.Machine.execW1_1 b0 s
  | .w1_2 b0 => Sys2Proof.Machine.execW1_2 b0 s
  | .w1_3 b0 => Sys2Proof.Machine.execW1_3 b0 s
  | .w1_4 b0 => Sys2Proof.Machine.execW1_4 b0 s
  | .w1_5 b0 => Sys2Proof.Machine.execW1_5 b0 s
  | .w1_6 b0 => Sys2Proof.Machine.execW1_6 b0 s
  | .w3 payload => Sys2Proof.Machine.execW3 payload s
  | .w5 payload => Sys2Proof.Machine.execW5 payload s
  | .w9 payload => Sys2Proof.Machine.execW9 payload s

end Sys2Proof.Machine
end

