-- ==== Sys2Proof/WellFormed.lean ====
section
/-! DEFINITION. Which terms of `Instr` stand for an instruction of the spec: the first byte of a W1 row lies in that
row of the prefix byte map (30_encoding.md R54), and the reserved command code is no instruction (R63). -/

namespace Sys2Proof

/-- `b0` falls in the row with this match and mask (opcode_table.json; 30_encoding.md R54). -/
def Byte.inRow (pattern mask b0 : Byte) : Bool := b0 &&& mask == pattern

/-- The check on a term of `Instr`. -/
def Instr.wellFormed : Instr → Bool
  | .sizeof _ => true
  | .enc _ => true
  | .dec => true
  | .reservedOp3 => false
  | .w1_0 b0 => Byte.inRow 0x00 0x80 b0
  | .w1_1 b0 => Byte.inRow 0x80 0xC0 b0
  | .w1_2 b0 => Byte.inRow 0xC0 0xE0 b0
  | .w1_3 b0 => Byte.inRow 0xE0 0xF0 b0
  | .w1_4 b0 => Byte.inRow 0xF0 0xF8 b0
  | .w1_5 b0 => Byte.inRow 0xF8 0xFC b0
  | .w1_6 b0 => Byte.inRow 0xFC 0xFF b0
  | .w3 _ => true
  | .w5 _ => true
  | .w9 _ => true

/-- A term of `Instr` that stands for an instruction of the spec. -/
abbrev Instr.WellFormed (i : Instr) : Prop := i.wellFormed = true

end Sys2Proof
end

