-- ==== Sys2Proof/Decode.lean ====
section
/-! DEFINITION. Decoding and encoding: the command word (30_encoding.md R59) and the wire formats (R52 to R55), and
the reading of a number laid out as the opcode table lays it out. -/

namespace Sys2Proof

/-- Why bytes are no encoding. The wire format has no illegal byte (30_encoding.md R61): a sequence can only be too
short, or longer than the one encoding asked for. -/
inductive DecodeError where
  /-- There is no first byte. -/
  | emptyEncoding
  /-- Fewer bytes follow the sentinel than `PayloadLen` asks for. -/
  | truncatedPayload
  /-- Bytes are left over after the one encoding. -/
  | trailingBytes
  deriving DecidableEq, Repr

/-- The two kinds of encoded thing (30_encoding.md R50): a command word, and a varint on the wire, lowest offset
first. -/
inductive Encoding where
  | command (c : CommandWord)
  | wire (bytes : List Byte)
  deriving DecidableEq, Repr

/-! ### The command word -/

/-- The port `cmd_op`: `C[65:64]` (30_encoding.md R59, 10_state.md R131). -/
def commandOp (c : CommandWord) : BitVec 2 := c.extractLsb' 64 2

/-- The port `cmd_value`: `C[63:0]`. -/
def commandValue (c : CommandWord) : Word := c.extractLsb' 0 64

/-- The command word with these two fields. -/
def commandWord (op : BitVec 2) (value : Word) : CommandWord := op ++ value

/-- The instruction of a command word, total: `0b11` is the row the model refuses (R63), and `DEC` drops the ignored
`value` field. -/
def decodeCommand (c : CommandWord) : Instr :=
  if commandOp c = 0b00#2 then .sizeof (commandValue c)
  else if commandOp c = 0b01#2 then .enc (commandValue c)
  else if commandOp c = 0b10#2 then .dec
  else .reservedOp3

/-! ### The wire formats -/

/-- The W1 row of a first byte that is no sentinel, by the seven match and mask pairs of 30_encoding.md R54. -/
def decodeW1 (b0 : Byte) : Instr :=
  if b0 &&& 0x80 = 0x00 then .w1_0 b0
  else if b0 &&& 0xC0 = 0x80 then .w1_1 b0
  else if b0 &&& 0xE0 = 0xC0 then .w1_2 b0
  else if b0 &&& 0xF0 = 0xE0 then .w1_3 b0
  else if b0 &&& 0xF8 = 0xF0 then .w1_4 b0
  else if b0 &&& 0xFC = 0xF8 then .w1_5 b0
  else .w1_6 b0

/-- The instruction of a first byte and the payload bytes that follow it, as many as `PayloadLen(b0)`
(30_encoding.md R52, R54, R57). -/
def decodeFormat (b0 : Byte) (payload : List Byte) : Instr :=
  if b0 = 0xFD#8 then .w3 (BitVec.ofNat 16 (Machine.leValue payload))
  else if b0 = 0xFE#8 then .w5 (BitVec.ofNat 32 (Machine.leValue payload))
  else if b0 = 0xFF#8 then .w9 (BitVec.ofNat 64 (Machine.leValue payload))
  else decodeW1 b0

/-- The encoding at the head of a byte sequence, and the bytes after it: the format is self-delimiting
(30_encoding.md R55, R56). -/
def decodeWire : List Byte → Except DecodeError (Instr × List Byte)
  | [] => .error .emptyEncoding
  | b0 :: rest =>
    if rest.length < Machine.payloadLen b0 then .error .truncatedPayload
    else .ok (decodeFormat b0 (rest.take (Machine.payloadLen b0)), rest.drop (Machine.payloadLen b0))

/-- The instruction that an encoding is, no byte left over. -/
def decode : Encoding → Except DecodeError Instr
  | .command c => .ok (decodeCommand c)
  | .wire bytes =>
    match decodeWire bytes with
    | .ok (i, []) => .ok i
    | .ok (_, _ :: _) => .error .trailingBytes
    | .error e => .error e

/-! ### The encoder -/

/-- The encoding of an instruction (30_encoding.md R52, R59). `DEC` has zeros in its ignored field, as the assembler
fills it (R59); so has the reserved code, of which the spec gives no further bits. -/
def encode : Instr → Encoding
  | .sizeof value => .command (commandWord 0b00#2 value)
  | .enc value => .command (commandWord 0b01#2 value)
  | .dec => .command (commandWord 0b10#2 0#64)
  | .reservedOp3 => .command (commandWord 0b11#2 0#64)
  | .w1_0 b0 => .wire [b0]
  | .w1_1 b0 => .wire [b0]
  | .w1_2 b0 => .wire [b0]
  | .w1_3 b0 => .wire [b0]
  | .w1_4 b0 => .wire [b0]
  | .w1_5 b0 => .wire [b0]
  | .w1_6 b0 => .wire [b0]
  | .w3 payload => .wire (0xFD#8 :: Machine.leBytes (payload.setWidth 64) 2)
  | .w5 payload => .wire (0xFE#8 :: Machine.leBytes (payload.setWidth 64) 4)
  | .w9 payload => .wire (0xFF#8 :: Machine.leBytes payload 8)

/-- The instruction of the canonical encoding of a value, the one `ENC` writes (40_encode.md R72; ranges in
30_encoding.md R62). -/
def canonicalFormat (value : Word) : Instr :=
  match Machine.tier value with
  | .t1 => decodeW1 (value.setWidth 8)
  | .t2 => .w3 (value.setWidth 16)
  | .t3 => .w5 (value.setWidth 32)
  | .t4 => .w9 value

/-! ### Numbers laid out as the opcode table numbers them -/

/-- The `n` bytes of a number, bit 0 in the first. -/
def bytesOfNat (w : Nat) : Nat → List Byte
  | 0 => []
  | n + 1 => BitVec.ofNat 8 w :: bytesOfNat (w / 2 ^ 8) n

/-- The encoding that a number of the opcode table stands for. The table gives a command 66 bits, which are 9 whole
bytes, as many as W9 has: a 9-byte number whose first byte is `0xFF` is read as W9, any other that fits 66 bits as
a command word (DESIGN CHOICE, notes/assumptions/9.md). Every shorter number is a wire format, its payload filled up with
zeros to `WireLen(b0)`. -/
def tableEncoding (nbits w : Nat) : Encoding :=
  let w := w % 2 ^ nbits
  if Config.commandBits ≤ nbits ∧ w < 2 ^ Config.commandBits ∧ (nbits < Config.longestWireBits ∨ w % 2 ^ 8 ≠ 0xFF) then
    .command (BitVec.ofNat 66 w)
  else if nbits = 0 then .wire []
  else .wire (bytesOfNat w (Machine.wireLen (BitVec.ofNat 8 w)))

/-- The instruction the decoder reads from a number of the opcode table; none where it refuses. -/
def decodeTableWord (nbits w : Nat) : Option Instr :=
  match decode (tableEncoding nbits w) with
  | .ok i => some i
  | .error _ => none

end Sys2Proof
end

