-- ==== Sys2Proof/Machine/Fetch.lean ====
section
/-! DEFINITION. What the host presents next, and presenting an encoding to the machine. The block fetches no
instructions (10_state.md R21). -/

namespace Sys2Proof.Machine

/-- What a step finds to do. -/
inductive Fetched where
  | instr (i : Instr)
  | move (m : HostMove)
  | stop (r : Refusal)
  deriving DecidableEq, Repr

/-- The next input. A state with `OFF > CAP` is refused whatever is presented (10_state.md R17,
93_implementation_defined.md U6); with nothing presented the run has ended (70_reset_and_hazards.md R130). -/
def fetch (s : State) : Fetched :=
  if s.cap < s.off then .stop .offsetPastCapacity
  else match s.pending with
    | [] => .stop .noInputPresented
    | .command c :: _ => .instr (decodeCommand c)
    | .host m :: _ => .move m

/-- Present an encoding as the next thing to run: a command word on the command port; the bytes of a wire format in
the buffer at `OFF`, with `CAP` raised where they would not fit and `DEC` on the command port
(notes/assumptions/11.md). -/
def present (e : Encoding) (s : State) : State :=
  match e with
  | .command c => { s with pending := .command c :: s.pending }
  | .wire bytes =>
    { s with
      mem := setBytes s.off bytes s.mem
      cap := max s.cap (s.off + bytes.length)
      pending := .command (commandWord 0b10#2 0#64) :: s.pending }

end Sys2Proof.Machine
end

