-- ==== Sys2Proof/Machine/HostMoves.lean ====
section
/-! DEFINITION. The host's moves on the buffer between commands (20_memory.md R47, 30_encoding.md R66). A move that
breaks its requirement is refused (93_implementation_defined.md U6). -/

namespace Sys2Proof.Machine

/-- Every move leaves `OFF <= CAP` (70_reset_and_hazards.md R120) and gives no response. -/
def hostMove (m : HostMove) (s : State) : Out :=
  let s₁ := { s with pending := s.pending.tail }
  match m with
  | .seek offset =>
    if offset ≤ s.cap then .next { s₁ with off := offset } else .refused .hostMoveOutsideContract
  | .fill offset bytes =>
    if offset + bytes.length ≤ s.cap then .next { s₁ with mem := setBytes offset bytes s.mem }
    else .refused .hostMoveOutsideContract
  | .grow bytes => .next { s₁ with mem := setBytes s.cap bytes s.mem, cap := s.cap + bytes.length }
  | .shrink capacity =>
    if s.off ≤ capacity ∧ capacity ≤ s.cap then .next { s₁ with mem := keepBelow capacity s.mem, cap := capacity }
    else .refused .hostMoveOutsideContract
  | .swap bytes =>
    if bytes.length = s.cap then .next { s₁ with mem := setBytes 0 bytes [] }
    else .refused .hostMoveOutsideContract
  | .peek offset => if offset < s.cap then .next s₁ else .refused .hostMoveOutsideContract

end Sys2Proof.Machine
end

