-- ==== Sys2Proof/Machine/Step.lean ====
section
/-! DEFINITION. The step: one command or one host move, atomic (70_reset_and_hazards.md R123). -/

namespace Sys2Proof.Machine

/-- Take the next input and run it whole. -/
def step (s : State) : Host.Outcome State Fault Refusal :=
  match fetch s with
  | .instr i => exec i s
  | .move m => hostMove m s
  | .stop r => .refused r

/-- The state in which the very next step runs the instruction that the opcode table numbers `w` in `nbits` bits
(notes/assumptions/11.md). -/
def State.withFetchWord (s : State) (nbits w : Nat) : State := present (tableEncoding nbits w) s

end Sys2Proof.Machine
end

