-- ==== Sys2Proof/Machine/Assembler.lean ====
section
/-! DEFINITION. The textual form of a run (30_encoding.md R64, R66): one command or host move a line, read into the
inputs a host presents. A line is a list of characters. -/

namespace Sys2Proof.Machine

/-- Why a line is no input: assembler errors, none of them a behaviour of the block. -/
inductive AsmError where
  /-- The first word is no mnemonic of R64 or R66. -/
  | unknownMnemonic
  /-- An operand is missing, is one too many, or is no numeral of R64. -/
  | badOperand
  /-- A value above `2^64 - 1`: "an assembler error, never a truncation" (R64). -/
  | valueOutOfRange
  deriving DecidableEq, Repr

/-- A line without its comment: `;` starts one (R64). -/
def withoutComment : List Char → List Char
  | [] => []
  | c :: cs => if c = ';' then [] else c :: withoutComment cs

/-- The characters between words: space, tab, carriage return, and the comma of `HOST.FILL` (R66). -/
def separates (c : Char) : Bool := c = ' ' || c = ',' || c.toNat = 9 || c.toNat = 13

/-- The words of a line, and the start of a word that runs into it, as a pair. -/
def splitWords : List Char → List Char × List (List Char)
  | [] => ([], [])
  | c :: cs =>
    let (word, words) := splitWords cs
    if separates c then ([], if word = [] then words else word :: words) else (c :: word, words)

/-- The words of a line, none empty. -/
def lineWords (line : List Char) : List (List Char) :=
  let (word, words) := splitWords (withoutComment line)
  if word = [] then words else word :: words

/-- A hexadecimal digit, of either case. -/
def digitValue (c : Char) : Option Nat :=
  let n := c.toNat
  if 48 ≤ n ∧ n ≤ 57 then some (n - 48)
  else if 65 ≤ n ∧ n ≤ 70 then some (n - 55)
  else if 97 ≤ n ∧ n ≤ 102 then some (n - 87)
  else none

/-- Digits of a base read after a number already read. -/
def readDigits (base : Nat) : Nat → List Char → Option Nat
  | acc, [] => some acc
  | acc, c :: cs =>
    match digitValue c with
    | some d => if d < base then readDigits base (acc * base + d) cs else none
    | none => none

/-- A decimal numeral or a `0x` numeral (R64; 00_scope.md R7). -/
def numeral : List Char → Option Nat
  | '0' :: 'x' :: c :: cs => readDigits 16 0 (c :: cs)
  | c :: cs => readDigits 10 0 (c :: cs)
  | [] => none

/-- A byte of `HOST.FILL`: two hexadecimal digits, as 95_test_vectors.md writes bytes. -/
def hexByte : List Char → Option Byte
  | [c, d] => (readDigits 16 0 [c, d]).map (BitVec.ofNat 8)
  | _ => none

/-- The bytes of `HOST.FILL`. -/
def hexBytes : List (List Char) → Option (List Byte)
  | [] => some []
  | w :: ws =>
    match hexByte w, hexBytes ws with
    | some b, some bs => some (b :: bs)
    | _, _ => none

/-- A command whose operand is the value of one word, in the range of R64. -/
def valueCommand (op : BitVec 2) : List (List Char) → Except AsmError (Option Input)
  | [w] =>
    match numeral w with
    | some n => if n < 2 ^ 64 then .ok (some (.command (commandWord op (BitVec.ofNat 64 n)))) else .error .valueOutOfRange
    | none => .error .badOperand
  | _ => .error .badOperand

/-- `DEC` has no operand; the assembler fills the ignored field with zeros (30_encoding.md R59). -/
def decCommand : List (List Char) → Except AsmError (Option Input)
  | [] => .ok (some (.command (commandWord 0b10#2 0#64)))
  | _ => .error .badOperand

/-- `HOST.SEEK <offset>`, R66. -/
def seekMove : List (List Char) → Except AsmError (Option Input)
  | [w] =>
    match numeral w with
    | some n => .ok (some (.host (.seek n)))
    | none => .error .badOperand
  | _ => .error .badOperand

/-- `HOST.FILL <offset>, <byte> ...`, R66. -/
def fillMove : List (List Char) → Except AsmError (Option Input)
  | w :: b :: bs =>
    match numeral w, hexBytes (b :: bs) with
    | some n, some bytes => .ok (some (.host (.fill n bytes)))
    | _, _ => .error .badOperand
  | _ => .error .badOperand

/-- One line: no input for a line with no words (R64, R66). Mnemonics are upper case. -/
def assembleLine (line : List Char) : Except AsmError (Option Input) :=
  match lineWords line with
  | [] => .ok none
  | name :: operands =>
    if name = ['S', 'I', 'Z', 'E', 'O', 'F'] then valueCommand 0b00#2 operands
    else if name = ['E', 'N', 'C'] then valueCommand 0b01#2 operands
    else if name = ['D', 'E', 'C'] then decCommand operands
    else if name = ['H', 'O', 'S', 'T', '.', 'S', 'E', 'E', 'K'] then seekMove operands
    else if name = ['H', 'O', 'S', 'T', '.', 'F', 'I', 'L', 'L'] then fillMove operands
    else .error .unknownMnemonic

/-- A listing, executed top to bottom (R64): the inputs of its lines in order, or the first error. -/
def assemble : List (List Char) → Except AsmError (List Input)
  | [] => .ok []
  | line :: lines =>
    match assembleLine line with
    | .error e => .error e
    | .ok none => assemble lines
    | .ok (some input) =>
      match assemble lines with
      | .error e => .error e
      | .ok inputs => .ok (input :: inputs)

end Sys2Proof.Machine
end

