-- ==== Sys2Proof/Safety.lean ====
section
/-! DEFINITION. What claims about the machine speak of: the invariant of a command boundary, the remaining capacity,
the encoding at the offset, and runs. -/

namespace Sys2Proof.Machine

/-- `MEM[a]`. -/
def byteAt (s : State) (a : Nat) : Byte := getByte a s.mem

/-- `CAP - OFF`, the remaining capacity (00_scope.md R12). -/
def remaining (s : State) : Nat := s.cap - s.off

/-- A transfer that 10_state.md R132 and 20_memory.md R31 allow: `rsv_n` of 1, 2, 4 or 8, with as many lanes when
granted and none when not. -/
abbrev Transfer.legal (x : Transfer) : Prop :=
  (x.n = 1 ∨ x.n = 2 ∨ x.n = 4 ∨ x.n = 8) ∧ x.lanes.length = if x.ok then x.n.toNat else 0

/-- The invariant of a command boundary: `OFF <= CAP` (10_state.md R17); `MEM` in canonical form with no byte at or
past `CAP` (R14); every response and every transfer one the spec allows (R19, R132). -/
structure State.Inv (s : State) : Prop where
  off_le_cap : s.off ≤ s.cap
  mem_wf : s.mem.wf
  mem_lt_cap : ∀ c ∈ s.mem, c.1 < s.cap
  responses_legal : ∀ r ∈ s.responses, r.legal
  bus_legal : ∀ x ∈ s.bus, x.legal

/-- The transfers of one `ENC` or `DEC` with `r` bytes left (20_memory.md R31, 10_state.md R132): `Reserve(1)` with the
prefix in its lane, and, where that was granted and the format has a payload, one more reservation for all of it. A
denied one has `rsv_ok = 0` and no lanes. -/
def transfersOf (write : Bool) (r : Nat) (first : Byte) (payload : List Byte) : List Transfer :=
  if r = 0 then [⟨1, write, false, []⟩]
  else ⟨1, write, true, [first]⟩ ::
    if payload = [] then []
    else if 1 + payload.length ≤ r then [⟨BitVec.ofNat 4 payload.length, write, true, payload⟩]
    else [⟨BitVec.ofNat 4 payload.length, write, false, []⟩]

/-- The wire-format row of the bytes at `OFF`, whether or not they fit (30_encoding.md R50, R54). -/
def encodingAtOff (s : State) : Instr :=
  decodeFormat (byteAt s s.off) (getBytes (s.off + 1) (payloadLen (byteAt s s.off)) s.mem)

/-- The sizes of the canonical encodings of a list of values, added up. -/
def totalSize (values : List Word) : Nat := (values.map fun v => (encodedSize v).toNat).sum

/-- `SIZEOF value` as the host presents it (30_encoding.md R59). -/
def sizeofInput (value : Word) : Input := .command (commandWord 0b00#2 value)

/-- `ENC value` as the host presents it. -/
def encInput (value : Word) : Input := .command (commandWord 0b01#2 value)

/-- `DEC` as the host presents it. -/
def decInput : Input := .command (commandWord 0b10#2 0#64)

/-- `word` writes the number `n` as a decimal numeral (30_encoding.md R64): one or more digits, the most significant
first. -/
def IsDecimalNumeral (word : List Char) (n : Nat) : Prop :=
  ∃ ds : List (Fin 10), ds ≠ [] ∧ n = Nat.ofDigits 10 (ds.map Fin.val).reverse ∧
    word = ds.map fun d => ['0', '1', '2', '3', '4', '5', '6', '7', '8', '9'][d]

/-- `word` writes the number `n` as a `0x` hexadecimal numeral (30_encoding.md R64). The `Bool` of a digit is its case,
which the spec leaves open (notes/assumptions/16.md). -/
def IsHexNumeral (word : List Char) (n : Nat) : Prop :=
  ∃ ds : List (Fin 16 × Bool), ds ≠ [] ∧ n = Nat.ofDigits 16 (ds.map fun d => d.1.val).reverse ∧
    word = '0' :: 'x' :: ds.map fun d =>
      if d.2 then ['0', '1', '2', '3', '4', '5', '6', '7', '8', '9', 'A', 'B', 'C', 'D', 'E', 'F'][d.1]
      else ['0', '1', '2', '3', '4', '5', '6', '7', '8', '9', 'a', 'b', 'c', 'd', 'e', 'f'][d.1]

/-- What may follow the last word of a line: spaces, and then nothing or a comment (30_encoding.md R64). -/
def IsLineEnd (tail : List Char) : Prop :=
  ∃ (k : Nat) (comment : List Char), tail = List.replicate k ' ' ++ comment ∧
    (comment = [] ∨ comment.head? = some ';')

/-- A run of `k` inputs from a launch state (70_reset_and_hazards.md R130): `k` steps, stopping at the first fault or
refusal. -/
def runInputs (k : Nat) (s : State) : Out := Host.Core.run Sys2Proof.core k s

end Sys2Proof.Machine
end

