-- ==== Sys2Proof/Certificates/Slice0/Obligations.lean ====
section
/-! DEFINITION. The statements for the provers. -/

open Sys2Proof Sys2Proof.Machine

/-! ### Encodings -/

/-- 30_encoding.md R59 and R52 on words written out from 95_test_vectors.md E1 and E6: the decoder reads the row each
word stands for. Two clauses are the model's choice: that code `0b11`, which E6 has refused, decodes to a row of its own
(notes/assumptions/20.md), and that the 72-bit number with first byte `0xFF`, which fits 66 bits too, is read as W9 and
not as a command word (notes/assumptions/9.md). -/
def Obligations.TableWordsDecodeToTheirRows : Prop :=
  decodeTableWord 66 0x0_0000000000000010 = some (.sizeof 0x10) ∧
  decodeTableWord 66 0x1_00000000000000FD = some (.enc 0xFD) ∧
  decodeTableWord 66 0x2_DEADBEEF00000001 = some .dec ∧
  decodeTableWord 66 0x3_0000000000000001 = some .reservedOp3 ∧
  decodeTableWord 8 0x7F = some (.w1_0 0x7F) ∧
  decodeTableWord 8 0xFC = some (.w1_6 0xFC) ∧
  decodeTableWord 24 0x1234FD = some (.w3 0x1234) ∧
  decodeTableWord 40 0x12345678FE = some (.w5 0x12345678) ∧
  decodeTableWord 72 0x0123456789ABCDEFFF = some (.w9 0x0123456789ABCDEF)

/-- Decoding the encoding of a well-formed instruction gives it back, for every row and every operand (30_encoding.md
R52, R54, R59). -/
def Obligations.DecodeAfterEncodeIsIdentity : Prop :=
  ∀ i : Instr, i.WellFormed → decode (encode i) = .ok i

/-- Bytes that decode are the encoding of what they decode to, which is well-formed: the wire format has one meaning
for each byte sequence (30_encoding.md R52, R57). -/
def Obligations.WireBytesHaveOneMeaning : Prop :=
  ∀ (bytes : List Byte) (i : Instr), decode (.wire bytes) = .ok i → encode i = .wire bytes ∧ i.WellFormed

/-- The format is self-delimiting (30_encoding.md R56): an encoding at the head of a sequence is read whole, and what
follows is left. -/
def Obligations.WireFormatIsSelfDelimiting : Prop :=
  ∀ (i : Instr) (bytes rest : List Byte), i.WellFormed → encode i = .wire bytes →
    decodeWire (bytes ++ rest) = .ok (i, rest) ∧ ∀ b0 ∈ bytes.head?, bytes.length = wireLen b0

/-- 30_encoding.md R54 and R55: exactly one of the ten match and mask rows holds of each first byte; it is a sentinel
exactly when `b0[7:2] = 0b111111` and `b0[1:0] != 0b00`, and then `PayloadLen(b0) = 2^(b0[1:0])`, else 0. -/
def Obligations.PrefixMapCoversEachByteOnce : Prop :=
  ∀ b0 : Byte,
    (([(0x00, 0x80), (0x80, 0xC0), (0xC0, 0xE0), (0xE0, 0xF0), (0xF0, 0xF8), (0xF8, 0xFC), (0xFC, 0xFF),
        (0xFD, 0xFF), (0xFE, 0xFF), (0xFF, 0xFF)] : List (Byte × Byte)).filter
          fun row => Byte.inRow row.1 row.2 b0).length = 1 ∧
    payloadLen b0 =
      if b0.extractLsb' 2 6 = 0b111111#6 ∧ b0.extractLsb' 0 2 ≠ 0b00#2 then 2 ^ (b0.extractLsb' 0 2).toNat else 0

/-- The command word by its two fields, for every content of `C[63:0]`; the assembler fills the ignored field of `DEC`
with zeros (30_encoding.md R59). That code `0b11` decodes to a row of its own is the model's choice
(notes/assumptions/20.md). -/
def Obligations.CommandWordFields : Prop :=
  encode .dec = .command (commandWord 0b10#2 0#64) ∧
  assembleLine ['D', 'E', 'C'] = .ok (some (.command (commandWord 0b10#2 0#64))) ∧
  ∀ value : Word,
    decodeCommand (commandWord 0b00#2 value) = .sizeof value ∧
    decodeCommand (commandWord 0b01#2 value) = .enc value ∧
    decodeCommand (commandWord 0b10#2 value) = .dec ∧
    decodeCommand (commandWord 0b11#2 value) = .reservedOp3 ∧
    ∀ op : BitVec 2, commandOp (commandWord op value) = op ∧ commandValue (commandWord op value) = value ∧
      (commandWord op value).toNat = op.toNat * 2 ^ 64 + value.toNat

/-! ### The pure sub-blocks -/

/-- `Tier`, `Prefix` and `PayloadBytes` by the value as an unsigned number, strict at each threshold (40_encode.md
R68, R69): the four tiers are the four ranges, and a T1 prefix is never a sentinel. -/
def Obligations.PrefixSelectByStrictThresholds : Prop :=
  ∀ v : Word,
    (v.toNat ≤ 252 → tier v = .t1 ∧ (prefixByte v).toNat = v.toNat ∧ payloadLen (prefixByte v) = 0) ∧
    (253 ≤ v.toNat → v.toNat ≤ 65534 → tier v = .t2 ∧ prefixByte v = 0xFD#8) ∧
    (65535 ≤ v.toNat → v.toNat ≤ 4294967294 → tier v = .t3 ∧ prefixByte v = 0xFE#8) ∧
    (4294967295 ≤ v.toNat → tier v = .t4 ∧ prefixByte v = 0xFF#8) ∧
    payloadBytes .t1 = 0 ∧ payloadBytes .t2 = 2 ∧ payloadBytes .t3 = 4 ∧ payloadBytes .t4 = 8

/-- `SizeOf` by the value as an unsigned number (42_sizeof.md R88), and its agreement with `Tier`. -/
def Obligations.SizeLookupByStrictThresholds : Prop :=
  ∀ v : Word,
    (encodedSize v).toNat = (if v.toNat < 0xFD then 1 else if v.toNat < 0xFFFF then 3
      else if v.toNat < 0xFFFFFFFF then 5 else 9) ∧
    (encodedSize v).toNat = 1 + payloadBytes (tier v)

/-- Length agreement between encoder and decoder (42_sizeof.md R90). -/
def Obligations.SizeIsWireLengthOfPrefix : Prop :=
  ∀ v : Word, (encodedSize v).toNat = wireLen (prefixByte v)

/-- The deserializer undoes the serializer in every tier: the truncation to the payload drops only zero bits
(30_encoding.md R58, 40_encode.md R70, 41_decode.md R79), and `Decoded` of the prefix and the payload is the value
(R80). -/
def Obligations.DecodedPayloadIsTheValue : Prop :=
  ∀ v : Word,
    v.toNat % 2 ^ (8 * max 1 (payloadBytes (tier v))) = v.toNat ∧
    decodedValue (prefixByte v) (leBytes v (payloadBytes (tier v))) = v

/-- Which values `ENC` puts in which format (30_encoding.md R62, table of canonical ranges). -/
def Obligations.CanonicalFormatRanges : Prop :=
  ∀ v : Word,
    (v.toNat ≤ 0xFC → encode (canonicalFormat v) = .wire [v.setWidth 8]) ∧
    (0xFD ≤ v.toNat → v.toNat ≤ 0xFFFE → canonicalFormat v = .w3 (v.setWidth 16)) ∧
    (0xFFFF ≤ v.toNat → v.toNat ≤ 0xFFFFFFFE → canonicalFormat v = .w5 (v.setWidth 32)) ∧
    (0xFFFFFFFF ≤ v.toNat → canonicalFormat v = .w9 v) ∧
    (canonicalFormat v).WellFormed

/-! ### The buffer primitives -/

/-- The properties (a) to (f) of `Reserve`, 20_memory.md R30, in a state of the contract `OFF <= CAP`. -/
def Obligations.ReserveIsExactAndSequential : Prop :=
  ∀ (n : Nat) (s : State), s.off ≤ s.cap →
    (n ≤ s.cap - s.off → reserve n s = .granted s.off { s with off := s.off + n }) ∧
    (s.cap - s.off < n → reserve n s = .denied s) ∧
    reserve 0 s = .granted s.off s ∧
    ∀ (m base base' : Nat) (s' s'' : State),
      reserve n s = .granted base s' → reserve m s' = .granted base' s'' → base' = base + n ∧ s''.off = base + n + m

/-- `MemRead(addr, n)` is the little-endian sum of the bytes of the span, below `2^(8n)` (20_memory.md R34). -/
def Obligations.MemReadIsLittleEndianSum : Prop :=
  ∀ (addr n : Nat) (s : State), n = 1 ∨ n = 2 ∨ n = 4 ∨ n = 8 → addr + n ≤ s.cap →
    ∃ x, memRead addr n s = .ok x ∧ x < 2 ^ (8 * n) ∧
      x = ((List.range n).map fun i => (byteAt s (addr + i)).toNat * 2 ^ (8 * i)).sum

/-- `MemWrite(addr, n, v)` writes byte `i` of `v` at `addr + i` and no other byte, and `MemRead` gives back
`trunc_n(v)` (20_memory.md R35, R49). -/
def Obligations.MemWriteIsLittleEndianAndReadBack : Prop :=
  ∀ (addr n : Nat) (v : Word) (s : State), n = 1 ∨ n = 2 ∨ n = 4 ∨ n = 8 → addr + n ≤ s.cap → s.mem.wf →
    ∃ t, memWrite addr n v s = .ok t ∧ t = { s with mem := t.mem } ∧
      (∀ i, i < n → byteAt t (addr + i) = v.extractLsb' (8 * i) 8) ∧
      (∀ a, a < addr ∨ addr + n ≤ a → byteAt t a = byteAt s a) ∧
      memRead addr n t = .ok (v.toNat % 2 ^ (8 * n))

/-! ### SIZEOF -/

/-- `SIZEOF`, the word with `op = 0b00`, answers `OK` with `SizeOf(value)` in every state, and changes neither `MEM`
nor `OFF` nor `CAP` (42_sizeof.md R87, with its example). -/
def Obligations.SizeofAnswersTheSize : Prop :=
  (∀ (v : Word) (s : State),
    decodeCommand (commandWord 0b00#2 v) = .sizeof v ∧
    exec (.sizeof v) s = .next { s with
      pending := s.pending.tail
      responses := s.responses ++ [⟨.ok, none, some (encodedSize v)⟩] }) ∧
  encodedSize 0xFD = 3

/-! ### ENC -/

/-- What a successful `ENC` leaves, and that it succeeds exactly when `L <= CAP - OFF` (40_encode.md R72). -/
def Obligations.EncWritesTheCanonicalEncoding : Prop :=
  ∀ (v : Word) (s : State) (L : Nat), L = 1 + payloadBytes (tier v) → s.off ≤ s.cap →
    L = (encodedSize v).toNat ∧
    (s.mem.wf → L ≤ s.cap - s.off →
      ∃ t, exec (.enc v) s = .next t ∧
        byteAt t s.off = prefixByte v ∧
        (∀ i, i < L - 1 → byteAt t (s.off + 1 + i) = v.extractLsb' (8 * i) 8) ∧
        (∀ a, a < s.off ∨ s.off + L ≤ a → byteAt t a = byteAt s a) ∧
        encode (canonicalFormat v) = .wire (getBytes s.off L t.mem) ∧
        t.off = s.off + L ∧
        t.cap = s.cap ∧
        t.pending = s.pending.tail ∧
        t.responses = s.responses ++ [⟨.ok, none, none⟩]) ∧
    (s.cap - s.off < L → ∀ t, exec (.enc v) s = .next t → t.responses ≠ s.responses ++ [⟨.ok, none, none⟩])

/-- What a failed `ENC` leaves (40_encode.md R73). No byte left: nothing is written, `OFF` stays. The payload does not
fit: the sentinel stays written, `OFF` is one past it, and no other byte is written. -/
def Obligations.EncWithTooLittleRoomFails : Prop :=
  ∀ (v : Word) (s : State),
    (s.off = s.cap → exec (.enc v) s = .next { s with
      pending := s.pending.tail
      responses := s.responses ++ [⟨.insufficientBuffer, none, none⟩]
      bus := s.bus ++ [⟨1, true, false, []⟩] }) ∧
    (s.mem.wf → s.off < s.cap → s.cap - s.off < 1 + payloadBytes (tier v) →
      ∃ t, exec (.enc v) s = .next t ∧
        byteAt t s.off = prefixByte v ∧
        (prefixByte v = 0xFD#8 ∨ prefixByte v = 0xFE#8 ∨ prefixByte v = 0xFF#8) ∧
        (∀ a, a ≠ s.off → byteAt t a = byteAt s a) ∧
        t.off = s.off + 1 ∧
        t.cap = s.cap ∧
        t.pending = s.pending.tail ∧
        t.responses = s.responses ++ [⟨.insufficientBuffer, none, none⟩])

/-- Size agreement (42_sizeof.md R89): `ENC v` answers `OK` exactly when `SizeOf(v)` bytes remain, and then advances
`OFF` by `SizeOf(v)`, the bytes below and above that span as before. -/
def Obligations.EncSucceedsExactlyWhenSizeFits : Prop :=
  ∀ (v : Word) (s : State), s.off ≤ s.cap →
    ∃ t r, exec (.enc v) s = .next t ∧ t.responses = s.responses ++ [r] ∧
      (r.status = .ok ↔ (encodedSize v).toNat ≤ s.cap - s.off) ∧
      (r.status = .ok → t.off = s.off + (encodedSize v).toNat ∧
        ∃ xs, t.bus = s.bus ++ xs ∧ (xs.map fun x => x.lanes.length).sum = (encodedSize v).toNat) ∧
      (∀ a, a < s.off ∨ s.off + (encodedSize v).toNat ≤ a → byteAt t a = byteAt s a)

/-- `ENC` never reads `MEM` (10_state.md R14, 40_encode.md R67): from two contents of `MEM` it gives the same `OFF`,
response and transfers, and the same bytes in the span it moved over. -/
def Obligations.EncNeverReadsMemory : Prop :=
  ∀ (v : Word) (s t : State) (m : Memory), s.mem.wf → m.wf → exec (.enc v) s = .next t →
    ∃ t', exec (.enc v) { s with mem := m } = .next t' ∧ { t with mem := t'.mem } = t' ∧
      (∀ a, s.off ≤ a → a < t.off → byteAt t' a = byteAt t a) ∧
      (∀ a, a < s.off ∨ t.off ≤ a → byteAt t' a = getByte a m)

/-! ### DEC -/

/-- What a successful `DEC` leaves, and that it succeeds exactly when `L <= r` (41_decode.md R82): with `p` the byte at
`OFF` and `L = WireLen(p)`, the value of the `L` bytes, `OFF` past them, the transfers that read them, `MEM` and
everything else as before. -/
def Obligations.DecReturnsTheValueAtTheOffset : Prop :=
  ∀ (s : State) (p : Byte) (L : Nat), s.off ≤ s.cap → p = byteAt s s.off → L = wireLen p →
    (L ≤ s.cap - s.off → exec .dec s = .next { s with
      off := s.off + L
      pending := s.pending.tail
      responses := s.responses ++ [⟨.ok, some (decodedValue p (getBytes (s.off + 1) (L - 1) s.mem)), none⟩]
      bus := s.bus ++ transfersOf false (s.cap - s.off) p (getBytes (s.off + 1) (L - 1) s.mem) }) ∧
    (s.cap - s.off < L → ∀ t, exec .dec s = .next t → ∀ r, t.responses = s.responses ++ [r] → r.status ≠ .ok)

/-- What a failed `DEC` leaves (41_decode.md R83): no byte left, `OFF` stays; the payload does not fit, `OFF` one past
the sentinel, the payload bytes not read: the one granted transfer has the sentinel alone, and the payload's is denied
without lanes; `MEM` unchanged and no result in both. -/
def Obligations.DecWithTooFewBytesFails : Prop :=
  ∀ s : State,
    (s.off = s.cap → exec .dec s = .next { s with
      pending := s.pending.tail
      responses := s.responses ++ [⟨.insufficientBuffer, none, none⟩]
      bus := s.bus ++ [⟨1, false, false, []⟩] }) ∧
    (s.off < s.cap → s.cap - s.off < wireLen (byteAt s s.off) →
      exec .dec s = .next { s with
        off := s.off + 1
        pending := s.pending.tail
        responses := s.responses ++ [⟨.insufficientBuffer, none, none⟩]
        bus := s.bus ++ [⟨1, false, true, [byteAt s s.off]⟩,
          ⟨BitVec.ofNat 4 (payloadLen (byteAt s s.off)), false, false, []⟩] })

/-- `DEC` "reads all of them and no other byte" (20_memory.md R32), of the bytes between the old and the new `OFF`: the
lanes of its read transfers, joined, are those bytes in order, and a `MEM` that agrees on them gives the same run.
`MEM` is not written. -/
def Obligations.DecReadsOnlyTheBytesItConsumes : Prop :=
  ∀ s t : State, exec .dec s = .next t →
    t.mem = s.mem ∧
    (∃ xs, t.bus = s.bus ++ xs ∧ (∀ x ∈ xs, x.write = false ∧ (x.ok = false → x.lanes = [])) ∧
      xs.flatMap (·.lanes) = getBytes s.off (t.off - s.off) s.mem) ∧
    ∀ m : Memory, (∀ a, s.off ≤ a → a < t.off → getByte a m = byteAt s a) →
      exec .dec { s with mem := m } = .next { t with mem := m }

/-! ### The wire formats -/

/-- W1: the prefix byte itself is the value, one byte is consumed (30_encoding.md R52, 41_decode.md R80). That a W1 row
is run as an instruction, on its byte whatever stands at `OFF`, is the model's choice (notes/assumptions/8.md). -/
def Obligations.W1FormatsReturnTheirByte : Prop :=
  ∀ (i : Instr) (b0 : Byte) (s : State),
    i = .w1_0 b0 ∨ i = .w1_1 b0 ∨ i = .w1_2 b0 ∨ i = .w1_3 b0 ∨ i = .w1_4 b0 ∨ i = .w1_5 b0 ∨ i = .w1_6 b0 →
    i.WellFormed → s.off < s.cap →
    exec i s = .next { s with
      off := s.off + 1
      pending := s.pending.tail
      responses := s.responses ++ [⟨.ok, some (b0.setWidth 64), none⟩]
      bus := s.bus ++ [⟨1, false, true, [b0]⟩] }

/-- W3, W5 and W9: the payload zero-extended to 64 bits is the value, whatever its magnitude (30_encoding.md R57,
R62); 3, 5 or 9 bytes are consumed. That these rows are run as instructions, on their payload whatever stands at
`OFF`, is the model's choice (notes/assumptions/8.md). -/
def Obligations.SentinelFormatsReturnTheirPayload : Prop :=
  (∀ (p : BitVec 16) (s : State), s.off + 3 ≤ s.cap →
    exec (.w3 p) s = .next { s with
      off := s.off + 3
      pending := s.pending.tail
      responses := s.responses ++ [⟨.ok, some (p.setWidth 64), none⟩]
      bus := s.bus ++ [⟨1, false, true, [0xFD#8]⟩, ⟨2, false, true, leBytes (p.setWidth 64) 2⟩] }) ∧
  (∀ (p : BitVec 32) (s : State), s.off + 5 ≤ s.cap →
    exec (.w5 p) s = .next { s with
      off := s.off + 5
      pending := s.pending.tail
      responses := s.responses ++ [⟨.ok, some (p.setWidth 64), none⟩]
      bus := s.bus ++ [⟨1, false, true, [0xFE#8]⟩, ⟨4, false, true, leBytes (p.setWidth 64) 4⟩] }) ∧
  (∀ (p : BitVec 64) (s : State), s.off + 9 ≤ s.cap →
    exec (.w9 p) s = .next { s with
      off := s.off + 9
      pending := s.pending.tail
      responses := s.responses ++ [⟨.ok, some p, none⟩]
      bus := s.bus ++ [⟨1, false, true, [0xFF#8]⟩, ⟨8, false, true, leBytes p 8⟩] })

/-- A wire format cut short by the end of the buffer (60_exceptions.md R103, third and fourth row): with no byte left
nothing is consumed; with fewer than it has, the sentinel is. The rule speaks of `DEC`; that a row is run as an
instruction is the model's choice (notes/assumptions/8.md). -/
def Obligations.WireFormatsCutShortFail : Prop :=
  ∀ (i : Instr) (bytes : List Byte) (s : State), i.WellFormed → encode i = .wire bytes →
    (s.off = s.cap → exec i s = .next { s with
      pending := s.pending.tail
      responses := s.responses ++ [⟨.insufficientBuffer, none, none⟩]
      bus := s.bus ++ [⟨1, false, false, []⟩] }) ∧
    (s.off < s.cap → s.cap - s.off < bytes.length →
      exec i s = .next { s with
        off := s.off + 1
        pending := s.pending.tail
        responses := s.responses ++ [⟨.insufficientBuffer, none, none⟩]
        bus := s.bus ++ [⟨1, false, true, bytes.take 1⟩, ⟨BitVec.ofNat 4 (bytes.length - 1), false, false, []⟩] })

/-- `DEC` is the wire-format row of the bytes at `OFF`, in every state and for every length of what is left. That the
rows have a meaning as instructions is the model's choice (notes/assumptions/8.md). -/
def Obligations.DecIsTheFormatAtTheOffset : Prop :=
  ∀ s : State, exec .dec s = exec (encodingAtOff s) s ∧ (encodingAtOff s).WellFormed

/-! ### Failure -/

/-- Nothing but `InsufficientBuffer` can go wrong in the block (60_exceptions.md R104): no command and no host move
ever faults. The wire-format rows are run as notes/assumptions/8.md has it. -/
def Obligations.NothingFaults : Prop :=
  (∀ (i : Instr) (s : State) (f : Fault), exec i s ≠ .fault f) ∧ ∀ (s : State) (f : Fault), step s ≠ .fault f

/-- Every command of the contract ends in a next state with one response (70_reset_and_hazards.md R130, 60_exceptions.md
R104): only the reserved code is refused. The wire-format rows are run as notes/assumptions/8.md has it. -/
def Obligations.EveryCommandAnswersOnce : Prop :=
  ∀ (i : Instr) (s : State), s.off ≤ s.cap → i ≠ .reservedOp3 →
    ∃ t r, exec i s = .next t ∧ t.responses = s.responses ++ [r] ∧ r.legal ∧ t.pending = s.pending.tail ∧
      t.off ≤ t.cap ∧ t.cap = s.cap

/-- A failed command consumes 0 or 1 byte, never more (60_exceptions.md R103), and a failure records nothing else
(R102). The wire-format rows are run as notes/assumptions/8.md has it. -/
def Obligations.FailureConsumesAtMostOneByte : Prop :=
  ∀ (i : Instr) (s t : State) (r : Response), exec i s = .next t → t.responses = s.responses ++ [r] →
    r.status = .insufficientBuffer →
    r = ⟨.insufficientBuffer, none, none⟩ ∧ (t.off = s.off ∨ t.off = s.off + 1) ∧
      ∀ a, a ≠ s.off → byteAt t a = byteAt s a

/-- After a failure with `OFF = CAP` every later `ENC` and `DEC` also fails, and leaves `MEM`, `OFF` and `CAP`
(60_exceptions.md R109). -/
def Obligations.FullBufferFailsEveryLaterCommand : Prop :=
  ∀ (inputs : List Input) (s : State), s.off = s.cap → s.pending = inputs →
    (∀ x ∈ inputs, x = decInput ∨ ∃ v, x = encInput v) →
    ∃ t, runInputs inputs.length s = .next t ∧ t.pending = [] ∧ t.mem = s.mem ∧ t.off = s.off ∧ t.cap = s.cap ∧
      t.responses = s.responses ++ inputs.map fun _ => ⟨.insufficientBuffer, none, none⟩

/-- Which field of a response is valid for which command (10_state.md R19): `size` exactly for `SIZEOF`, `result` only
for a decoding row with `OK`, and `SIZEOF` always answers `OK`. R19 gives `result` to `DEC`; that a wire-format row has
one too is the model's choice (notes/assumptions/8.md). -/
def Obligations.ResponseFieldsByCommand : Prop :=
  ∀ (i : Instr) (s t : State), exec i s = .next t →
    ∃ r, t.responses = s.responses ++ [r] ∧
      (r.size.isSome ↔ ∃ v, i = .sizeof v) ∧
      (∀ n, r.size = some n → n = 1 ∨ n = 3 ∨ n = 5 ∨ n = 9) ∧
      ((∃ v, i = .sizeof v) → r.status = .ok ∧ r.result = none) ∧
      ((∃ v, i = .enc v) → r.result = none) ∧
      (¬(∃ v, i = .sizeof v) → ¬(∃ v, i = .enc v) → (r.result.isSome ↔ r.status = .ok))

/-- The reserved command code is refused, by itself and as a presented word (30_encoding.md R63); the `value` field of
`DEC` has no effect. -/
def Obligations.ReservedCodeRefusedAndDecFieldIgnored : Prop :=
  (∀ s : State, exec .reservedOp3 s = .refused .reservedCommand) ∧
  ∀ (value : Word) (rest : List Input) (s : State), s.off ≤ s.cap →
    step { s with pending := .command (commandWord 0b11#2 value) :: rest } = .refused .reservedCommand ∧
    step { s with pending := .command (commandWord 0b10#2 value) :: rest } = step { s with pending := decInput :: rest }

/-- A state with the offset past the capacity is refused (10_state.md R17): by the step whatever is presented, and by
every meaning that reaches the buffer. The wire-format rows are run as notes/assumptions/8.md has it. -/
def Obligations.OffsetPastCapacityRefused : Prop :=
  ∀ s : State, s.cap < s.off →
    step s = .refused .offsetPastCapacity ∧
    ∀ i : Instr, i ≠ .reservedOp3 → (∀ v, i ≠ .sizeof v) → exec i s = .refused .offsetPastCapacity

/-! ### The buffer interface -/

/-- The reservations of `ENC` and `DEC` (20_memory.md R31): `Reserve(1)` for the prefix byte; when that was granted and
the tier has a payload, one more for the whole payload, and no other. `ENC` asks to write, `DEC` to read, and lane `i`
of a granted span is the byte at `base + i` (10_state.md R132): the lanes `ENC` sends, joined, are the bytes that then
stand between the old and the new `OFF`. A denied reservation has `rsv_ok = 0` and no lanes. -/
def Obligations.OneOrTwoReservationsACommand : Prop :=
  (∀ (v : Word) (s t : State), exec (.enc v) s = .next t →
    ∃ xs, t.bus = s.bus ++ xs ∧
      xs = transfersOf true (s.cap - s.off) (prefixByte v) (leBytes v (payloadBytes (tier v))) ∧
      (∀ x ∈ xs, x.write = true) ∧
      xs.map (fun x => x.n.toNat) =
        (if s.off = s.cap ∨ payloadBytes (tier v) = 0 then [1] else [1, payloadBytes (tier v)]) ∧
      (s.mem.wf → xs.flatMap (·.lanes) = getBytes s.off (t.off - s.off) t.mem)) ∧
  (∀ (s t : State), exec .dec s = .next t →
    ∃ xs, t.bus = s.bus ++ xs ∧
      xs = transfersOf false (s.cap - s.off) (byteAt s s.off)
        (getBytes (s.off + 1) (payloadLen (byteAt s s.off)) s.mem) ∧
      (∀ x ∈ xs, x.write = false) ∧
      xs.map (fun x => x.n.toNat) =
        if s.off = s.cap ∨ payloadLen (byteAt s s.off) = 0 then [1] else [1, payloadLen (byteAt s s.off)])

/-- Where the span lies in the buffer is nothing to a command (10_state.md R132): with `OFF` and `CAP` both moved by `k`
and the same bytes between them, it gives the same response and the same transfers, and moves `OFF` by as much. The
wire-format rows are run as notes/assumptions/8.md has it. -/
def Obligations.CommandsAreBlindToPlacement : Prop :=
  ∀ (i : Instr) (s t : State) (k : Nat) (m : Memory), exec i s = .next t →
    (∀ a, s.off ≤ a → a < s.cap → getByte (a + k) m = byteAt s a) →
    ∃ t', exec i { s with mem := m, off := s.off + k, cap := s.cap + k } = .next t' ∧
      t'.responses = t.responses ∧ t'.bus = t.bus ∧ t'.pending = t.pending ∧ t'.off = t.off + k ∧ t'.cap = t.cap + k

/-- No command changes `CAP` (10_state.md R16), and only `ENC` writes `MEM` (R14). The wire-format rows are run as
notes/assumptions/8.md has it. -/
def Obligations.OnlyEncWritesMemory : Prop :=
  ∀ (i : Instr) (s t : State), exec i s = .next t → t.cap = s.cap ∧ ((∀ v, i ≠ .enc v) → t.mem = s.mem)

/-! ### The step, host moves and runs -/

/-- A step runs the decoded instruction: where a command word is presented that decodes to `i`, the step is `exec i`,
and the word is taken off the port. -/
def Obligations.StepRunsTheDecodedInstruction : Prop :=
  ∀ (s : State) (c : CommandWord) (rest : List Input) (i : Instr), s.off ≤ s.cap → s.pending = .command c :: rest →
    decode (.command c) = .ok i → step s = exec i s ∧ ∀ t, exec i s = .next t → t.pending = rest

/-- A step with `DEC` presented runs the wire format of the bytes at `OFF`, once they are all there. That a wire-format
row is an instruction which a step can run is the model's choice (notes/assumptions/8.md). -/
def Obligations.StepRunsTheWireFormatAtTheOffset : Prop :=
  ∀ (s : State) (rest : List Input) (i : Instr) (bytes : List Byte), s.off + bytes.length ≤ s.cap →
    s.pending = decInput :: rest → getBytes s.off bytes.length s.mem = bytes → decode (.wire bytes) = .ok i →
    i.WellFormed ∧ step s = exec i s

/-- The host moves (20_memory.md R47, 30_encoding.md R66), each where its requirement holds, and the refusal where it
does not. -/
def Obligations.HostMovesKeepTheContract : Prop :=
  ∀ (s : State) (rest : List Input), s.off ≤ s.cap → s.mem.wf →
    (∀ o, s.pending = .host (.seek o) :: rest →
      step s = if o ≤ s.cap then .next { s with pending := rest, off := o } else .refused .hostMoveOutsideContract) ∧
    (∀ a bytes, s.pending = .host (.fill a bytes) :: rest → a + bytes.length ≤ s.cap →
      ∃ m, step s = .next { s with pending := rest, mem := m } ∧ getBytes a bytes.length m = bytes ∧
        ∀ x, x < a ∨ a + bytes.length ≤ x → getByte x m = byteAt s x) ∧
    (∀ a bytes, s.pending = .host (.fill a bytes) :: rest → s.cap < a + bytes.length →
      step s = .refused .hostMoveOutsideContract) ∧
    (∀ bytes, s.pending = .host (.grow bytes) :: rest →
      ∃ m, step s = .next { s with pending := rest, mem := m, cap := s.cap + bytes.length } ∧
        getBytes s.cap bytes.length m = bytes ∧ ∀ x, x < s.cap → getByte x m = byteAt s x) ∧
    (∀ c, s.pending = .host (.shrink c) :: rest → s.off ≤ c → c ≤ s.cap →
      ∃ m, step s = .next { s with pending := rest, mem := m, cap := c } ∧ ∀ x, x < c → getByte x m = byteAt s x) ∧
    (∀ c, s.pending = .host (.shrink c) :: rest → c < s.off ∨ s.cap < c →
      step s = .refused .hostMoveOutsideContract) ∧
    (∀ bytes, s.pending = .host (.swap bytes) :: rest → bytes.length = s.cap →
      ∃ m, step s = .next { s with pending := rest, mem := m } ∧ getBytes 0 s.cap m = bytes) ∧
    (∀ bytes, s.pending = .host (.swap bytes) :: rest → bytes.length ≠ s.cap →
      step s = .refused .hostMoveOutsideContract) ∧
    (∀ a, s.pending = .host (.peek a) :: rest →
      step s = if a < s.cap then .next { s with pending := rest } else .refused .hostMoveOutsideContract)

/-- One step takes one input: a command gives exactly one response, a host move none (10_state.md R131,
70_reset_and_hazards.md R123). -/
def Obligations.OneInputAStep : Prop :=
  ∀ s t : State, step s = .next t →
    ∃ x, s.pending = x :: t.pending ∧
      match x with
      | .command _ => ∃ r, t.responses = s.responses ++ [r]
      | .host _ => t.responses = s.responses ∧ t.bus = s.bus

/-- Every step from a command boundary leads to one: the offset stays within the capacity, `MEM` in canonical form with
no byte at or past `CAP`, every response and transfer one the spec allows (10_state.md R14, R17, R19, R132). -/
def Obligations.EveryStepKeepsTheBoundaryInvariant : Prop :=
  ∀ s t : State, s.Inv → step s = .next t → t.Inv

/-- The reset state is a command boundary. That `OFF` and `CAP` are 0 in it is the model's choice
(notes/assumptions/2.md). -/
def Obligations.ResetIsACommandBoundary : Prop :=
  State.reset.Inv ∧ State.reset.responses = [] ∧ State.reset.off = 0 ∧ State.reset.cap = 0

/-- A run ends when its list is exhausted (70_reset_and_hazards.md R130). That the step is then refused is the model's
choice (notes/assumptions/6.md). -/
def Obligations.RunEndsWhenInputsAreExhausted : Prop :=
  ∀ s t : State, s.Inv → runInputs s.pending.length s = .next t →
    t.Inv ∧ t.pending = [] ∧ step t = .refused .noInputPresented

/-- Round trip (42_sizeof.md R91): `ENC v`, the host's seek back, `DEC` answers `v`. -/
def Obligations.RoundTripReturnsTheValue : Prop :=
  ∀ (v : Word) (s : State) (rest : List Input), s.off ≤ s.cap → s.mem.wf → (encodedSize v).toNat ≤ s.cap - s.off →
    s.pending = encInput v :: .host (.seek s.off) :: decInput :: rest →
    ∃ t, runInputs 3 s = .next t ∧
      t.responses = s.responses ++ [⟨.ok, none, none⟩, ⟨.ok, some v, none⟩] ∧
      t.off = s.off + (encodedSize v).toNat ∧ t.cap = s.cap ∧ t.pending = rest

/-- Sequences (42_sizeof.md R92): a list of values written back to back and read back from where the first began comes
back in order, and the last `DEC` leaves `OFF` where the last `ENC` left it. -/
def Obligations.SequenceRoundTripReturnsTheValues : Prop :=
  ∀ (vs : List Word) (s : State), s.off ≤ s.cap → s.mem.wf → totalSize vs ≤ s.cap - s.off →
    s.pending = vs.map encInput ++ .host (.seek s.off) :: vs.map (fun _ => decInput) →
    ∃ u t, runInputs vs.length s = .next u ∧ u.off = s.off + totalSize vs ∧
      runInputs (vs.length + 1 + vs.length) s = .next t ∧ t.off = u.off ∧
      t.responses = s.responses ++ vs.map (fun _ => ⟨.ok, none, none⟩) ++ vs.map (fun v => ⟨.ok, some v, none⟩)

/-- Pre-sizing is sound (70_reset_and_hazards.md R122): where `SIZEOF v` answers at most the remaining capacity, the
`ENC v` after it cannot fail; where it answers more, that `ENC v` fails. -/
def Obligations.PresizingPredictsEnc : Prop :=
  ∀ (v : Word) (s : State) (rest : List Input), s.off ≤ s.cap →
    s.pending = sizeofInput v :: encInput v :: rest →
    ∃ t n r, runInputs 2 s = .next t ∧ t.responses = s.responses ++ [⟨.ok, none, some n⟩, r] ∧
      (r.status = .ok ↔ n.toNat ≤ remaining s)

/-! ### The textual form -/

/-- A numeral out of range is an assembler error, never a truncation; one in range is the command with that value
(30_encoding.md R64). `numeral` reads the decimal and the `0x` numerals at their value, and nothing else. The line of
`DEC` is its word with zeros in the value field (R59). The case of hexadecimal digits is notes/assumptions/16.md's. -/
def Obligations.AssemblerNeverTruncates : Prop :=
  (∀ (word : List Char) (n : Nat), numeral word = some n ↔ IsDecimalNumeral word n ∨ IsHexNumeral word n) ∧
  (∀ (word tail : List Char) (n k : Nat), IsDecimalNumeral word n ∨ IsHexNumeral word n → IsLineEnd tail →
    (2 ^ 64 ≤ n →
      assembleLine (['S', 'I', 'Z', 'E', 'O', 'F', ' '] ++ List.replicate k ' ' ++ word ++ tail) =
        .error .valueOutOfRange ∧
      assembleLine (['E', 'N', 'C', ' '] ++ List.replicate k ' ' ++ word ++ tail) = .error .valueOutOfRange) ∧
    (∀ v : Word, v.toNat = n →
      assembleLine (['S', 'I', 'Z', 'E', 'O', 'F', ' '] ++ List.replicate k ' ' ++ word ++ tail) =
        .ok (some (sizeofInput v)) ∧
      assembleLine (['E', 'N', 'C', ' '] ++ List.replicate k ' ' ++ word ++ tail) = .ok (some (encInput v)))) ∧
  (∀ tail : List Char, IsLineEnd tail → assembleLine (['D', 'E', 'C'] ++ tail) = .ok (some decInput)) ∧
  (∀ v : Word, sizeofInput v = .command (0b00#2 ++ v) ∧ encInput v = .command (0b01#2 ++ v)) ∧
  decInput = .command (0b10#2 ++ 0#64)
end

