-- ==== Sys2Proof/Laws/Memory.lean ====
section
/-! SUPPORT. The laws of reading and writing `MEM`, and that every operation keeps its canonical form. -/

namespace Sys2Proof.Machine

theorem Memory.wf_nil : Memory.wf [] := by decide

theorem Memory.wf_tail {c : Host.Cell} {m : Memory} (h : Memory.wf (c :: m)) : Memory.wf m :=
  ⟨h.1.tail, fun x hx => h.2 x (List.mem_cons_of_mem _ hx)⟩

theorem getByte_eq_unlisted_of_lt {a : Nat} {m : Memory} (h : ∀ c ∈ m, a < c.1) : getByte a m = unlistedByte := by
  induction m with
  | nil => rfl
  | cons c m ih =>
    obtain ⟨x, b⟩ := c
    have hx : a < x := h _ (List.mem_cons_self ..)
    simp only [getByte, if_neg (by omega : ¬x = a)]
    exact ih fun d hd => h d (List.mem_cons_of_mem _ hd)

theorem getByte_cellAt_same {a : Nat} {b : Byte} {m : Memory} (h : ∀ c ∈ m, a < c.1) :
    getByte a (cellAt a b m) = b := by
  unfold cellAt
  split
  · next hb => rw [getByte_eq_unlisted_of_lt h, hb]
  · simp [getByte]

theorem getByte_cellAt_of_ne {a x : Nat} {b : Byte} {m : Memory} (h : x ≠ a) :
    getByte x (cellAt a b m) = getByte x m := by
  unfold cellAt
  split
  · rfl
  · simp [getByte, h.symm]

theorem rest_lt_of_wf {x : Nat} {c : Byte} {m : Memory} (h : Memory.wf ((x, c) :: m)) : ∀ d ∈ m, x < d.1 :=
  (List.pairwise_cons.mp h.1).1

/-- A read gives the byte last written there. -/
theorem getByte_setByte_same {a : Nat} {b : Byte} {m : Memory} (h : Memory.wf m) :
    getByte a (setByte a b m) = b := by
  induction m with
  | nil => exact getByte_cellAt_same (by simp)
  | cons c m ih =>
    obtain ⟨x, c⟩ := c
    have hrest := rest_lt_of_wf h
    simp only [setByte]
    split
    · next hlt =>
      refine getByte_cellAt_same fun d hd => ?_
      rcases List.mem_cons.mp hd with rfl | hd
      · exact hlt
      · exact hlt.trans (hrest d hd)
    · split
      · next heq => subst heq; exact getByte_cellAt_same hrest
      · next hne => simp [getByte, Ne.symm hne, ih (Memory.wf_tail h)]

/-- A write leaves every other byte alone. -/
theorem getByte_setByte_of_ne {a x : Nat} {b : Byte} {m : Memory} (h : x ≠ a) :
    getByte x (setByte a b m) = getByte x m := by
  induction m with
  | nil => exact getByte_cellAt_of_ne h
  | cons c m ih =>
    obtain ⟨y, c⟩ := c
    simp only [setByte]
    split
    · exact getByte_cellAt_of_ne h
    · split
      · next heq => subst heq; rw [getByte_cellAt_of_ne h]; simp [getByte, h.symm]
      · simp [getByte, ih]

theorem mem_cellAt {a : Nat} {b : Byte} {m : Memory} {c : Host.Cell} (h : c ∈ cellAt a b m) : c ∈ m ∨ c.1 = a := by
  unfold cellAt at h
  split at h
  · exact .inl h
  · rcases List.mem_cons.mp h with rfl | h
    · exact .inr rfl
    · exact .inl h

theorem mem_setByte {a : Nat} {b : Byte} {m : Memory} {c : Host.Cell} (h : c ∈ setByte a b m) : c ∈ m ∨ c.1 = a := by
  induction m with
  | nil => exact mem_cellAt h
  | cons d m ih =>
    obtain ⟨x, d⟩ := d
    simp only [setByte] at h
    split at h
    · exact mem_cellAt h
    · split at h
      · exact (mem_cellAt h).imp_left (List.mem_cons_of_mem _)
      · rcases List.mem_cons.mp h with rfl | h
        · exact .inl (List.mem_cons_self ..)
        · exact (ih h).imp_left (List.mem_cons_of_mem _)

theorem cellAt_wf {a : Nat} {b : Byte} {m : Memory} (hm : Memory.wf m) (h : ∀ c ∈ m, a < c.1) :
    Memory.wf (cellAt a b m) := by
  unfold cellAt
  split
  · exact hm
  · next hb =>
    refine ⟨List.pairwise_cons.mpr ⟨h, hm.1⟩, fun c hc => ?_⟩
    rcases List.mem_cons.mp hc with rfl | hc
    · exact hb
    · exact hm.2 c hc

theorem setByte_wf {a : Nat} {b : Byte} {m : Memory} (h : Memory.wf m) : Memory.wf (setByte a b m) := by
  induction m with
  | nil => exact cellAt_wf h (by simp)
  | cons c m ih =>
    obtain ⟨x, c⟩ := c
    have hrest := rest_lt_of_wf h
    simp only [setByte]
    split
    · next hlt =>
      refine cellAt_wf h fun d hd => ?_
      rcases List.mem_cons.mp hd with rfl | hd
      · exact hlt
      · exact hlt.trans (hrest d hd)
    · split
      · next heq => subst heq; exact cellAt_wf (Memory.wf_tail h) hrest
      · next hge hne =>
        have ih := ih (Memory.wf_tail h)
        refine ⟨List.pairwise_cons.mpr ⟨fun d hd => ?_, ih.1⟩, fun d hd => ?_⟩
        · rcases mem_setByte hd with hd | hd
          · exact hrest d hd
          · simp only; omega
        · rcases List.mem_cons.mp hd with rfl | hd
          · exact h.2 _ (List.mem_cons_self ..)
          · exact ih.2 d hd

theorem setBytes_wf {a : Nat} {bs : List Byte} {m : Memory} (h : Memory.wf m) : Memory.wf (setBytes a bs m) := by
  induction bs generalizing a m with
  | nil => exact h
  | cons b bs ih => exact ih (setByte_wf h)

/-- A written cell lies in the span. -/
theorem mem_setBytes {a : Nat} {bs : List Byte} {m : Memory} {c : Host.Cell} (h : c ∈ setBytes a bs m) :
    c ∈ m ∨ (a ≤ c.1 ∧ c.1 < a + bs.length) := by
  induction bs generalizing a m with
  | nil => exact .inl h
  | cons b bs ih =>
    simp only [List.length_cons]
    rcases ih h with h | h
    · rcases mem_setByte h with h | h
      · exact .inl h
      · exact .inr (by omega)
    · exact .inr (by omega)

/-- A write of a span leaves every byte outside it alone. -/
theorem getByte_setBytes_outside {a x : Nat} {bs : List Byte} {m : Memory} (h : x < a ∨ a + bs.length ≤ x) :
    getByte x (setBytes a bs m) = getByte x m := by
  induction bs generalizing a m with
  | nil => rfl
  | cons b bs ih =>
    simp only [List.length_cons] at h
    rw [setBytes, ih (by omega), getByte_setByte_of_ne (by omega)]

/-- A read inside a written span gives the byte written there. -/
theorem getByte_setBytes_inside {a i : Nat} {bs : List Byte} {m : Memory} (hm : Memory.wf m) (h : i < bs.length) :
    getByte (a + i) (setBytes a bs m) = bs[i] := by
  induction bs generalizing a i m with
  | nil => exact absurd h (by simp)
  | cons b bs ih =>
    rw [setBytes]
    cases i with
    | zero => rw [Nat.add_zero, getByte_setBytes_outside (by omega), getByte_setByte_same hm]; rfl
    | succ i =>
      have h' : i < bs.length := by simpa using h
      rw [show a + (i + 1) = a + 1 + i by omega, ih (setByte_wf hm) h']
      rfl

@[simp] theorem getBytes_length {a n : Nat} {m : Memory} : (getBytes a n m).length = n := by
  induction n generalizing a with
  | zero => rfl
  | succ n ih => simp [getBytes, ih]

theorem getBytes_getElem {a n i : Nat} {m : Memory} (h : i < (getBytes a n m).length) :
    (getBytes a n m)[i] = getByte (a + i) m := by
  induction n generalizing a i with
  | zero => exact absurd h (by simp [getBytes])
  | succ n ih =>
    cases i with
    | zero => rfl
    | succ i =>
      simp only [getBytes, List.getElem_cons_succ]
      rw [ih, show a + 1 + i = a + (i + 1) by omega]

/-- Two memories that agree on a span give the same bytes of it. -/
theorem getBytes_congr {a n : Nat} {m m' : Memory} (h : ∀ x, a ≤ x → x < a + n → getByte x m = getByte x m') :
    getBytes a n m = getBytes a n m' := by
  induction n generalizing a with
  | zero => rfl
  | succ n ih => rw [getBytes, getBytes, h a (by omega) (by omega), ih fun x _ _ => h x (by omega) (by omega)]

/-- Reading back a written span. -/
theorem getBytes_setBytes {a : Nat} {bs : List Byte} {m : Memory} (hm : Memory.wf m) :
    getBytes a bs.length (setBytes a bs m) = bs := by
  refine List.ext_getElem (by simp) fun i h _ => ?_
  rw [getBytes_getElem, getByte_setBytes_inside hm]

theorem keepBelow_wf {capacity : Nat} {m : Memory} (h : Memory.wf m) : Memory.wf (keepBelow capacity m) :=
  ⟨h.1.filter _, fun c hc => h.2 c (List.mem_of_mem_filter hc)⟩

theorem mem_keepBelow {capacity : Nat} {m : Memory} {c : Host.Cell} (h : c ∈ keepBelow capacity m) :
    c.1 < capacity := by
  simpa using (List.mem_filter.mp h).2

/-- The bytes below the capacity kept read as before. -/
theorem getByte_keepBelow {a capacity : Nat} {m : Memory} (h : a < capacity) :
    getByte a (keepBelow capacity m) = getByte a m := by
  induction m with
  | nil => rfl
  | cons c m ih =>
    obtain ⟨x, b⟩ := c
    simp only [keepBelow] at ih ⊢
    by_cases hx : x < capacity
    · simp [hx, getByte, ih]
    · simp [hx, getByte, ih, show x ≠ a by omega]

end Sys2Proof.Machine
end

