-- ==== Sys2Proof/Laws/Operands.lean ====
section
/-! SUPPORT. The laws of the pure sub-blocks: byte order, lengths, tiers. -/

namespace Sys2Proof.Machine

@[simp] theorem leBytes_length {v : Word} {n : Nat} : (leBytes v n).length = n := by simp [leBytes]

@[simp] theorem leBytes_getElem {v : Word} {n i : Nat} (h : i < (leBytes v n).length) :
    (leBytes v n)[i] = byteOf v i := by
  simp [leBytes]

/-- Serializing one byte more: the lowest byte, then the bytes of the value shifted down. -/
theorem leBytes_succ {v : Word} {n : Nat} : leBytes v (n + 1) = v.setWidth 8 :: leBytes (v >>> 8) n := by
  refine List.ext_getElem (by simp) fun i h _ => ?_
  rw [leBytes_getElem]
  cases i with
  | zero => ext j; simp [byteOf]
  | succ i =>
    rw [List.getElem_cons_succ, leBytes_getElem]
    ext j hj
    simp [byteOf]
    congr 1
    omega

/-- The serializer and the deserializer agree: `n` bytes of `v` hold `v` modulo `2^(8n)` (20_memory.md R35). -/
theorem leValue_leBytes {v : Word} {n : Nat} : leValue (leBytes v n) = v.toNat % 2 ^ (8 * n) := by
  induction n generalizing v with
  | zero => simp [leBytes, leValue, Nat.mod_one]
  | succ n ih =>
    rw [leBytes_succ, leValue, ih, BitVec.toNat_setWidth, BitVec.toNat_ushiftRight, Nat.shiftRight_eq_div_pow,
      show 8 * (n + 1) = 8 + 8 * n by omega, Nat.pow_add, Nat.mod_mul]

/-- A sequence of `n` bytes holds a number below `2^(8n)` (20_memory.md R34). -/
theorem leValue_lt {bs : List Byte} : leValue bs < 2 ^ (8 * bs.length) := by
  induction bs with
  | nil => simp [leValue]
  | cons b bs ih =>
    have hb := b.isLt
    rw [List.length_cons, show 8 * (bs.length + 1) = 8 + 8 * bs.length by omega, Nat.pow_add, leValue]
    nlinarith

/-- The deserializer loses nothing: up to eight bytes are the bytes of their value. -/
theorem leBytes_leValue {bs : List Byte} (h : bs.length ≤ 8) :
    leBytes (BitVec.ofNat 64 (leValue bs)) bs.length = bs := by
  induction bs with
  | nil => rfl
  | cons b bs ih =>
    have hbs := ih (by simp at h; omega)
    have hlt : leValue bs < 2 ^ 56 := lt_of_lt_of_le leValue_lt (Nat.pow_le_pow_right (by omega) (by simp at h; omega))
    have hb := b.isLt
    rw [List.length_cons, leBytes_succ]
    congr 1
    · apply BitVec.eq_of_toNat_eq
      simp only [leValue, BitVec.toNat_setWidth, BitVec.toNat_ofNat]
      omega
    · rw [show BitVec.ofNat 64 (leValue (b :: bs)) >>> 8 = BitVec.ofNat 64 (leValue bs) from ?_, hbs]
      apply BitVec.eq_of_toNat_eq
      simp only [leValue, BitVec.toNat_ushiftRight, BitVec.toNat_ofNat, Nat.shiftRight_eq_div_pow]
      omega

/-- `PayloadLen` is 0, 2, 4 or 8, by the first byte (41_decode.md R78). -/
theorem payloadLen_cases (p : Byte) :
    (p = 0xFD#8 ∧ payloadLen p = 2) ∨ (p = 0xFE#8 ∧ payloadLen p = 4) ∨ (p = 0xFF#8 ∧ payloadLen p = 8) ∨
      (p ≠ 0xFD#8 ∧ p ≠ 0xFE#8 ∧ p ≠ 0xFF#8 ∧ payloadLen p = 0) := by
  unfold payloadLen
  split_ifs <;> simp_all

theorem payloadLen_le (p : Byte) : payloadLen p ≤ 8 := by
  unfold payloadLen
  split_ifs <;> decide

/-- `Tier` by the value as a number (40_encode.md R68). -/
theorem tier_cases (v : Word) :
    (tier v = .t1 ∧ v.toNat < 253) ∨ (tier v = .t2 ∧ 253 ≤ v.toNat ∧ v.toNat < 65535) ∨
      (tier v = .t3 ∧ 65535 ≤ v.toNat ∧ v.toNat < 4294967295) ∨ (tier v = .t4 ∧ 4294967295 ≤ v.toNat) := by
  unfold tier
  split_ifs with h₁ h₂ h₃ <;> simp only [BitVec.lt_def, BitVec.toNat_ofNat] at * <;> simp <;> omega

end Sys2Proof.Machine
end

