-- ==== Sys2Proof/Laws/State.lean ====
section
/-! SUPPORT. What each update of the state leaves in each field. -/

namespace Sys2Proof.Machine

variable (s : State) (r : Response) (n : Nat) (write ok : Bool) (lanes : List Byte)

@[simp] theorem State.respond_mem : (s.respond r).mem = s.mem := rfl
@[simp] theorem State.respond_off : (s.respond r).off = s.off := rfl
@[simp] theorem State.respond_cap : (s.respond r).cap = s.cap := rfl
@[simp] theorem State.respond_pending : (s.respond r).pending = s.pending.tail := rfl
@[simp] theorem State.respond_responses : (s.respond r).responses = s.responses ++ [r] := rfl
@[simp] theorem State.respond_bus : (s.respond r).bus = s.bus := rfl

@[simp] theorem State.transfer_mem : (s.transfer n write ok lanes).mem = s.mem := rfl
@[simp] theorem State.transfer_off : (s.transfer n write ok lanes).off = s.off := rfl
@[simp] theorem State.transfer_cap : (s.transfer n write ok lanes).cap = s.cap := rfl
@[simp] theorem State.transfer_pending : (s.transfer n write ok lanes).pending = s.pending := rfl
@[simp] theorem State.transfer_responses : (s.transfer n write ok lanes).responses = s.responses := rfl
@[simp] theorem State.transfer_bus :
    (s.transfer n write ok lanes).bus = s.bus ++ [⟨BitVec.ofNat 4 n, write, ok, lanes⟩] := rfl

end Sys2Proof.Machine
end

