-- ==== Sys2Proof/Laws/Ops.lean ====
section
/-! SUPPORT. What each shared operation can do, said once. -/

namespace Sys2Proof.Machine

theorem reserve_of_past {n : Nat} {s : State} (h : s.cap < s.off) : reserve n s = .refused .offsetPastCapacity := by
  simp [reserve, h]

theorem reserve_of_fits {n : Nat} {s : State} (h : s.off + n ≤ s.cap) :
    reserve n s = .granted s.off { s with off := s.off + n } := by
  simp [reserve, show ¬s.cap < s.off by omega, show n ≤ s.cap - s.off by omega]

theorem reserve_of_short {n : Nat} {s : State} (h : s.off ≤ s.cap) (hn : s.cap < s.off + n) :
    reserve n s = .denied s := by
  simp [reserve, show ¬s.cap < s.off by omega, show ¬n ≤ s.cap - s.off by omega]

/-- Everything `store` can do. -/
theorem store_eq (n : Nat) (v : Word) (s : State) :
    store n v s =
      if s.cap < s.off then .refused .offsetPastCapacity
      else if s.off + n ≤ s.cap then
        .granted () (State.transfer n true true (leBytes v n)
          { s with mem := setBytes s.off (leBytes v n) s.mem, off := s.off + n })
      else .denied (s.transfer n true false []) := by
  by_cases h : s.cap < s.off
  · simp [store, reserve_of_past h, h]
  · by_cases hn : s.off + n ≤ s.cap
    · simp [store, reserve_of_fits hn, memWrite, hn, h]
    · simp [store, reserve_of_short (n := n) (s := s) (by omega) (by omega), hn, h]

/-- Everything `load` can do. -/
theorem load_eq (n : Nat) (s : State) :
    load n s =
      if s.cap < s.off then .refused .offsetPastCapacity
      else if s.off + n ≤ s.cap then
        .granted (getBytes s.off n s.mem)
          (State.transfer n false true (getBytes s.off n s.mem) { s with off := s.off + n })
      else .denied (s.transfer n false false []) := by
  by_cases h : s.cap < s.off
  · simp [load, reserve_of_past h, h]
  · by_cases hn : s.off + n ≤ s.cap
    · simp [load, reserve_of_fits hn, readSpan, hn, h]
    · simp [load, reserve_of_short (n := n) (s := s) (by omega) (by omega), hn, h]

/-- Everything `loadKnown` can do. -/
theorem loadKnown_eq (n : Nat) (lanes : List Byte) (s : State) :
    loadKnown n lanes s =
      if s.cap < s.off then .refused .offsetPastCapacity
      else if s.off + n ≤ s.cap then .granted () (State.transfer n false true lanes { s with off := s.off + n })
      else .denied (s.transfer n false false []) := by
  by_cases h : s.cap < s.off
  · simp [loadKnown, reserve_of_past h, h]
  · by_cases hn : s.off + n ≤ s.cap
    · simp [loadKnown, reserve_of_fits hn, hn, h]
    · simp [loadKnown, reserve_of_short (n := n) (s := s) (by omega) (by omega), hn, h]

/-- Everything `orRaise` can do. -/
theorem orRaise_cases {α : Type} (x : Access α) (k : α → State → Out) :
    (∃ a s, x = .granted a s ∧ x.orRaise k = k a s) ∨
      (∃ s, x = .denied s ∧ x.orRaise k = .next (s.respond insufficientBufferResponse)) ∨
      (∃ f, x = .fault f ∧ x.orRaise k = .fault f) ∨ (∃ r, x = .refused r ∧ x.orRaise k = .refused r) := by
  cases x with
  | granted a s => exact .inl ⟨a, s, rfl, rfl⟩
  | denied s => exact .inr (.inl ⟨s, rfl, rfl⟩)
  | fault f => exact .inr (.inr (.inl ⟨f, rfl, rfl⟩))
  | refused r => exact .inr (.inr (.inr ⟨r, rfl, rfl⟩))

/-- Everything `takeEncoding` can do. -/
theorem takeEncoding_eq (b0 : Byte) (payload : List Byte) (s : State) :
    takeEncoding b0 payload s =
      if s.cap < s.off then .refused .offsetPastCapacity
      else if s.cap = s.off then .next ((s.transfer 1 false false []).respond insufficientBufferResponse)
      else
        let s₁ := State.transfer 1 false true [b0] { s with off := s.off + 1 }
        if payloadLen b0 = 0 then .next (s₁.respond (resultResponse (decodedValue b0 payload)))
        else if s.off + wireLen b0 ≤ s.cap then
          .next ((State.transfer (payloadLen b0) false true payload
            { s₁ with off := s.off + wireLen b0 }).respond (resultResponse (decodedValue b0 payload)))
        else .next ((s₁.transfer (payloadLen b0) false false []).respond insufficientBufferResponse) := by
  unfold takeEncoding
  rw [loadKnown_eq]
  by_cases h : s.cap < s.off
  · simp [h, Access.orRaise]
  · by_cases h0 : s.cap = s.off
    · simp [h0, Access.orRaise, raiseInsufficientBuffer]
    · have h1 : s.off + 1 ≤ s.cap := by omega
      simp only [h, h0, h1, if_true, if_false, Access.orRaise, loadKnown_eq, State.transfer_cap, State.transfer_off,
        Nat.not_lt.mpr h1, wireLen, ← Nat.add_assoc]
      by_cases hz : payloadLen b0 = 0
      · simp only [hz, if_true]
      · by_cases hn : s.off + 1 + payloadLen b0 ≤ s.cap
        · simp only [hz, hn, if_true, if_false]
        · simp only [hz, hn, if_false]; rfl

/-- Loading one byte gives the byte at the offset. -/
theorem leValue_getBytes_one (a : Nat) (m : Memory) : BitVec.ofNat 8 (leValue (getBytes a 1 m)) = getByte a m := by
  simp [getBytes, leValue]

end Sys2Proof.Machine
end

