-- ==== Sys2Proof/Laws/PerInstr.lean ====
section
/-! SUPPORT. The family `EncodingWidth`: the encoding of an instruction has the width of its row in
spec/opcode_table.json, and a wire format's length is told by its first byte (30_encoding.md R52, R55). -/

namespace Sys2Proof.Laws

open Sys2Proof.Machine

/-- The column `width_bits` of the opcode table. -/
def rowWidth : Instr → Nat
  | .sizeof _ | .enc _ | .dec | .reservedOp3 => 66
  | .w1_0 _ | .w1_1 _ | .w1_2 _ | .w1_3 _ | .w1_4 _ | .w1_5 _ | .w1_6 _ => 8
  | .w3 _ => 24
  | .w5 _ => 40
  | .w9 _ => 72

/-- The first byte of a wire format tells its whole length, which is the row's width. -/
def lengthAgrees (i : Instr) (bytes : List Byte) : Prop :=
  8 * bytes.length = rowWidth i ∧ ∀ b0 ∈ bytes.head?, bytes.length = wireLen b0

/-- The encoding of a well-formed `i` is as wide as its row says. -/
def EncodingWidth.Statement (i : Instr) : Prop :=
  i.WellFormed → (∃ c, encode i = .command c ∧ rowWidth i = 66) ∨ ∃ bytes, encode i = .wire bytes ∧ lengthAgrees i bytes

/-- A byte of a W1 row is no sentinel. -/
theorem payloadLen_of_row {pattern mask : Byte}
    (h : ∀ b : Byte, Byte.inRow pattern mask b → b ≠ 0xFD#8 ∧ b ≠ 0xFE#8 ∧ b ≠ 0xFF#8) {b0 : Byte}
    (hb : Byte.inRow pattern mask b0 = true) : payloadLen b0 = 0 := by
  obtain ⟨h₁, h₂, h₃⟩ := h b0 hb
  rcases payloadLen_cases b0 with h | h | h | h
  · exact absurd h.1 h₁
  · exact absurd h.1 h₂
  · exact absurd h.1 h₃
  · exact h.2.2.2

theorem lengthAgrees_single {i : Instr} {b0 : Byte} (hw : rowWidth i = 8) (h : payloadLen b0 = 0) :
    lengthAgrees i [b0] := by
  simp [lengthAgrees, hw, wireLen, h]

theorem EncodingWidth.sizeof (value : Word) : EncodingWidth.Statement (.sizeof value) := fun _ => .inl ⟨_, rfl, rfl⟩
theorem EncodingWidth.enc (value : Word) : EncodingWidth.Statement (.enc value) := fun _ => .inl ⟨_, rfl, rfl⟩
theorem EncodingWidth.dec : EncodingWidth.Statement .dec := fun _ => .inl ⟨_, rfl, rfl⟩
theorem EncodingWidth.reservedOp3 : EncodingWidth.Statement .reservedOp3 := fun _ => .inl ⟨_, rfl, rfl⟩
theorem EncodingWidth.w1_0 (b0 : Byte) : EncodingWidth.Statement (.w1_0 b0) := fun h =>
  .inr ⟨_, rfl, lengthAgrees_single rfl (payloadLen_of_row (by decide) h)⟩
theorem EncodingWidth.w1_1 (b0 : Byte) : EncodingWidth.Statement (.w1_1 b0) := fun h =>
  .inr ⟨_, rfl, lengthAgrees_single rfl (payloadLen_of_row (by decide) h)⟩
theorem EncodingWidth.w1_2 (b0 : Byte) : EncodingWidth.Statement (.w1_2 b0) := fun h =>
  .inr ⟨_, rfl, lengthAgrees_single rfl (payloadLen_of_row (by decide) h)⟩
theorem EncodingWidth.w1_3 (b0 : Byte) : EncodingWidth.Statement (.w1_3 b0) := fun h =>
  .inr ⟨_, rfl, lengthAgrees_single rfl (payloadLen_of_row (by decide) h)⟩
theorem EncodingWidth.w1_4 (b0 : Byte) : EncodingWidth.Statement (.w1_4 b0) := fun h =>
  .inr ⟨_, rfl, lengthAgrees_single rfl (payloadLen_of_row (by decide) h)⟩
theorem EncodingWidth.w1_5 (b0 : Byte) : EncodingWidth.Statement (.w1_5 b0) := fun h =>
  .inr ⟨_, rfl, lengthAgrees_single rfl (payloadLen_of_row (by decide) h)⟩
theorem EncodingWidth.w1_6 (b0 : Byte) : EncodingWidth.Statement (.w1_6 b0) := fun h =>
  .inr ⟨_, rfl, lengthAgrees_single rfl (payloadLen_of_row (by decide) h)⟩
theorem EncodingWidth.w3 (payload : BitVec 16) : EncodingWidth.Statement (.w3 payload) := fun _ =>
  .inr ⟨_, rfl, by simp [lengthAgrees, rowWidth, wireLen, payloadLen]⟩
theorem EncodingWidth.w5 (payload : BitVec 32) : EncodingWidth.Statement (.w5 payload) := fun _ =>
  .inr ⟨_, rfl, by simp [lengthAgrees, rowWidth, wireLen, payloadLen]⟩
theorem EncodingWidth.w9 (payload : BitVec 64) : EncodingWidth.Statement (.w9 payload) := fun _ =>
  .inr ⟨_, rfl, by simp [lengthAgrees, rowWidth, wireLen, payloadLen]⟩

end Sys2Proof.Laws
end

