-- ==== Sys2Proof/Tests/Slice0.lean ====
section
/-! SUPPORT. Tests: expected results are those of spec/95_test_vectors.md and the rule named; then, for every statement
that has hypotheses, a state and operands that meet them. -/

namespace Sys2Proof.Tests

open Sys2Proof.Machine

/-! ### Helpers -/

/-- A launch state: these bytes from offset 0, `CAP` as many. -/
def launch (bytes : List Byte) (off : Nat) (pending : List Input) : State :=
  { mem := setBytes 0 bytes [], off := off, cap := bytes.length, pending := pending, responses := [], bus := [] }

/-- The state after, if there is one. -/
def after : Out → Option State
  | .next t => some t
  | _ => none

/-- `OFF`, the responses, and all bytes of `MEM` after. -/
def seen (o : Out) : Option (Nat × List Response × List Byte) :=
  (after o).map fun t => (t.off, t.responses, getBytes 0 t.cap t.mem)

/-- The response of 95_test_vectors.md's `IB`. -/
abbrev ib : Response := ⟨.insufficientBuffer, none, none⟩

/-- `OK` with no value. -/
abbrev ok : Response := ⟨.ok, none, none⟩

/-! ### WellFormed refuses -/

theorem test_wf_reserved : ¬Instr.WellFormed .reservedOp3 := by decide
theorem test_wf_w1_0 : ¬(Instr.w1_0 0x80).WellFormed := by decide
theorem test_wf_w1_1 : ¬(Instr.w1_1 0xC0).WellFormed := by decide
theorem test_wf_w1_2 : ¬(Instr.w1_2 0xE0).WellFormed := by decide
theorem test_wf_w1_3 : ¬(Instr.w1_3 0xF0).WellFormed := by decide
theorem test_wf_w1_4 : ¬(Instr.w1_4 0xF8).WellFormed := by decide
theorem test_wf_w1_5 : ¬(Instr.w1_5 0xFC).WellFormed := by decide
theorem test_wf_w1_6 : ¬(Instr.w1_6 0xFD).WellFormed := by decide

/-! ### Decoding: words written out from R52 and R59, 95_test_vectors.md E6 -/

theorem test_decode_sizeof :
    decode (.command (0b00#2 ++ 0xFFFFFFFFFFFFFFFF#64)) = .ok (.sizeof 0xFFFFFFFFFFFFFFFF) := by decide
theorem test_decode_enc : decode (.command 0x1_00000000000000FD) = .ok (.enc 0xFD) := by decide
theorem test_decode_dec : decode (.command 0x2_DEADBEEF00000001) = .ok .dec := by decide
theorem test_decode_reserved : decode (.command 0x3_FFFFFFFFFFFFFFFF) = .ok .reservedOp3 := by decide
theorem test_decode_w1_0 : decode (.wire [0b01111111]) = .ok (.w1_0 127) := by decide
theorem test_decode_w1_1 : decode (.wire [0b10000000]) = .ok (.w1_1 128) := by decide
theorem test_decode_w1_2 : decode (.wire [0b11011111]) = .ok (.w1_2 223) := by decide
theorem test_decode_w1_3 : decode (.wire [0b11101111]) = .ok (.w1_3 239) := by decide
theorem test_decode_w1_4 : decode (.wire [0b11110111]) = .ok (.w1_4 247) := by decide
theorem test_decode_w1_5 : decode (.wire [0b11111011]) = .ok (.w1_5 251) := by decide
theorem test_decode_w1_6 : decode (.wire [0b11111100]) = .ok (.w1_6 252) := by decide
theorem test_decode_w3 : decode (.wire [0xFD, 0x34, 0x12]) = .ok (.w3 0x1234) := by decide
theorem test_decode_w5 : decode (.wire [0xFE, 0x78, 0x56, 0x34, 0x12]) = .ok (.w5 0x12345678) := by decide
theorem test_decode_w9 : decode (.wire [0xFF, 0xEF, 0xCD, 0xAB, 0x89, 0x67, 0x45, 0x23, 0x01]) =
    .ok (.w9 0x0123456789ABCDEF) := by decide
theorem test_decode_truncated : decode (.wire [0xFE, 1, 2, 3]) = .error .truncatedPayload := by decide
theorem test_decode_empty : decode (.wire []) = .error .emptyEncoding := by decide
theorem test_decode_trailing : decode (.wire [0x10, 0x99]) = .error .trailingBytes := by decide
theorem test_decodeTableWord_w9 : decodeTableWord 72 0xFF = some (.w9 0) := by decide
theorem test_decodeTableWord_enc : decodeTableWord 72 0x1_0000000000000000 = some (.enc 0) := by decide

/-! ### SIZEOF: table R93 -/

theorem test_sizeof_boundaries :
    [0, 0xFC, 0xFD, 0xFFFE, 0xFFFF, 0xFFFFFFFE, 0xFFFFFFFF, 0x8000000000000000].map encodedSize =
      [1, 1, 3, 3, 5, 5, 9, 9] := by decide
theorem test_sizeof_response : (after (exec (.sizeof 0xFD) (launch [] 0 []))).map (·.responses) =
    some [⟨.ok, none, some 3⟩] := by decide

/-! ### ENC: tables E1 and E2, program P3 -/

theorem test_enc_tier3_strict : seen (exec (.enc 0xFFFF) (launch (List.replicate 6 0xAA) 0 [])) =
    some (5, [ok], [0xFE, 0xFF, 0xFF, 0x00, 0x00, 0xAA]) := by decide
theorem test_enc_no_rollback : seen (exec (.enc 0x100000000) (launch (List.replicate 8 0x55) 4 [])) =
    some (5, [ib], [0x55, 0x55, 0x55, 0x55, 0xFF, 0x55, 0x55, 0x55]) := by decide

/-! ### DEC: table E3 -/

theorem test_dec_noncanonical : seen (exec .dec (launch [0xFF, 1, 0, 0, 0, 0, 0, 0, 0] 0 [])) =
    some (9, [⟨.ok, some 1, none⟩], [0xFF, 1, 0, 0, 0, 0, 0, 0, 0]) := by decide
theorem test_dec_prefix_consumed : seen (exec .dec (launch [0xFE, 1, 2, 3] 0 [])) =
    some (1, [ib], [0xFE, 1, 2, 3]) := by decide

/-! ### The wire formats: table E3, R84 -/

theorem test_w1_last_byte : (after (exec (.w1_0 0x2A) (launch (List.replicate 8 0x2A) 7 []))).map
    (fun t => (t.off, t.responses)) = some (8, [⟨.ok, some 42, none⟩]) := by decide
theorem test_w3_not_sign_extended : (after (exec (.w3 0xFFFF) (launch [0xFD, 0xFF, 0xFF] 0 []))).map
    (fun t => (t.off, t.responses)) = some (3, [⟨.ok, some 65535, none⟩]) := by decide
theorem test_w5_short : (after (exec (.w5 5) (launch [0xFE, 5, 0, 0] 0 []))).map
    (fun t => (t.off, t.responses)) = some (1, [ib]) := by decide
theorem test_w9_high_bit : (after (exec (.w9 0x8000000000000000) (launch [0xFF, 0, 0, 0, 0, 0, 0, 0, 0x80] 0 []))).map
    (fun t => (t.off, t.responses)) = some (9, [⟨.ok, some 0x8000000000000000, none⟩]) := by decide

/-! ### The step -/

theorem test_step_reserved : step (launch [] 0 [.command 0x3_0000000000000000]) = .refused .reservedCommand := rfl
theorem test_step_idle : step (launch [] 0 []) = .refused .noInputPresented := rfl
theorem test_step_seek_past : step (launch [1] 0 [.host (.seek 2)]) = .refused .hostMoveOutsideContract := rfl
theorem test_step_fill : seen (step (launch [0, 0, 0] 1 [.host (.fill 1 [0xFD, 0x12])])) =
    some (1, [], [0, 0xFD, 0x12]) := by decide
theorem test_withFetchWord_w3 : (after (step (State.reset.withFetchWord 24 0x1234FD))).map (·.responses) =
    some [⟨.ok, some 0x1234, none⟩] := by decide
theorem test_withFetchWord_sizeof : (after (step (State.reset.withFetchWord 72 0x10))).map (·.responses) =
    some [⟨.ok, none, some 1⟩] := by decide

/-! ### The textual form: program P4's first line, R64 -/

theorem test_assemble_fill :
    assembleLine ['H', 'O', 'S', 'T', '.', 'F', 'I', 'L', 'L', ' ', '0', ',', ' ', 'F', 'D', ' ', '0', '0'] =
      .ok (some (.host (.fill 0 [0xFD, 0x00]))) := by decide
theorem test_assemble_enc : assembleLine ['E', 'N', 'C', ' ', '0', 'x', 'F', 'D', ' ', ';', ' ', 'x'] =
    .ok (some (.command 0x1_00000000000000FD)) := by decide

/-! ### Every hypothesis is met -/

theorem witness_DecodeAfterEncodeIsIdentity : (Instr.w1_6 0xFC).WellFormed ∧ (Instr.w9 1).WellFormed := by decide

theorem witness_WireBytesHaveOneMeaning : decode (.wire [0xFD, 0, 0]) = .ok (.w3 0) := by decide

theorem witness_WireFormatIsSelfDelimiting :
    (Instr.w3 0x1234).WellFormed ∧ encode (.w3 0x1234) = .wire [0xFD, 0x34, 0x12] := by decide

/-- Both ends of each of the four ranges. -/
theorem witness_PrefixSelectByStrictThresholds :
    [0, 252, 253, 65534, 65535, 4294967294, 4294967295, 0xFFFFFFFFFFFFFFFF].map tier =
      [.t1, .t1, .t2, .t2, .t3, .t3, .t4, .t4] := by decide

/-- Both ends of each of the four ranges. -/
theorem witness_CanonicalFormatRanges :
    [0, 0xFC, 0xFD, 0xFFFE, 0xFFFF, 0xFFFFFFFE, 0xFFFFFFFF, 0xFFFFFFFFFFFFFFFF].map canonicalFormat =
      [.w1_0 0, .w1_6 0xFC, .w3 0xFD, .w3 0xFFFE, .w5 0xFFFF, .w5 0xFFFFFFFE, .w9 0xFFFFFFFF,
        .w9 0xFFFFFFFFFFFFFFFF] := by decide

/-- Four bytes remain: `Reserve(4)` is granted, `Reserve(5)` denied; 1 and then 3 are granted one after the other. -/
theorem witness_ReserveIsExactAndSequential :
    reserve 4 (launch (List.replicate 8 0) 4 []) = .granted 4 (launch (List.replicate 8 0) 8 []) ∧
    reserve 5 (launch (List.replicate 8 0) 4 []) = .denied (launch (List.replicate 8 0) 4 []) ∧
    reserve 1 (launch (List.replicate 8 0) 4 []) = .granted 4 (launch (List.replicate 8 0) 5 []) ∧
    reserve 3 (launch (List.replicate 8 0) 5 []) = .granted 5 (launch (List.replicate 8 0) 8 []) := by decide

theorem witness_MemReadIsLittleEndianSum :
    2 + 2 ≤ (launch [1, 2, 0x34, 0x12] 0 []).cap ∧
    (memRead 2 2 (launch [1, 2, 0x34, 0x12] 0 [])).toOption = some 0x1234 := by decide

theorem witness_MemWriteIsLittleEndianAndReadBack :
    2 + 2 ≤ (launch [1, 2, 0x34, 0x12] 0 []).cap ∧ (launch [1, 2, 0x34, 0x12] 0 []).mem.wf := by decide

/-- `ENC 0xFD` with exactly 3 bytes left, and with one too few. -/
theorem witness_EncWritesTheCanonicalEncoding :
    1 + payloadBytes (tier 0xFD) = 3 ∧ (launch [0xAA, 0xAA, 0xAA] 0 []).mem.wf ∧
    3 ≤ (launch [0xAA, 0xAA, 0xAA] 0 []).cap - 0 ∧ (launch [0xAA, 0xAA] 0 []).cap - 0 < 3 ∧
    (after (exec (.enc 0xFD) (launch [0xAA, 0xAA] 0 []))).isSome := by decide

/-- No byte left; one byte left; one byte too few. -/
theorem witness_EncWithTooLittleRoomFails :
    (launch [0xAA] 1 []).off = (launch [0xAA] 1 []).cap ∧
    (launch [0xAA] 0 []).mem.wf ∧ (launch [0xAA] 0 []).off < (launch [0xAA] 0 []).cap ∧
    (launch [0xAA] 0 []).cap - 0 < 1 + payloadBytes (tier 0xFD) ∧
    (launch (List.replicate 8 0xAA) 0 []).cap - 0 < 1 + payloadBytes (tier 0xFFFFFFFF) ∧
    1 + payloadBytes (tier 0xFFFFFFFF) = 9 := by decide

theorem witness_EncSucceedsExactlyWhenSizeFits : (launch [0] 1 []).off ≤ (launch [0] 1 []).cap := by decide

theorem witness_EncNeverReadsMemory :
    (launch [1, 2, 3] 0 []).mem.wf ∧ Memory.wf [(1, 7)] ∧
    (after (exec (.enc 0xFD) (launch [1, 2, 3] 0 []))).isSome := by decide

/-- `FD 34 12` with exactly 3 bytes left, and with one too few. -/
theorem witness_DecReturnsTheValueAtTheOffset :
    byteAt (launch [0xFD, 0x34, 0x12] 0 []) 0 = 0xFD ∧ wireLen 0xFD = 3 ∧
    3 ≤ (launch [0xFD, 0x34, 0x12] 0 []).cap - 0 ∧ (launch [0xFD, 0x34] 0 []).cap - 0 < 3 ∧
    (after (exec .dec (launch [0xFD, 0x34] 0 []))).isSome := by decide

/-- No byte left; only the sentinel left; one byte too few. -/
theorem witness_DecWithTooFewBytesFails :
    (launch [0xFD] 1 []).off = (launch [0xFD] 1 []).cap ∧
    (launch [0xFD] 0 []).cap - 0 < wireLen (byteAt (launch [0xFD] 0 []) 0) ∧
    (launch [0xFD, 1] 0 []).cap - 0 < wireLen (byteAt (launch [0xFD, 1] 0 []) 0) := by decide

/-- Two contents of `MEM` that differ only past the one byte consumed. -/
theorem witness_DecReadsOnlyTheBytesItConsumes :
    (after (exec .dec (launch [0x10, 0x99] 0 []))).map (·.off) = some 1 ∧
    getByte 0 [(0, 0x10), (1, 0x77)] = byteAt (launch [0x10, 0x99] 0 []) 0 ∧
    (after (exec .dec (launch [0xFD, 0x34, 0x12] 0 []))).map (fun t => t.bus.flatMap (·.lanes)) =
      some [0xFD, 0x34, 0x12] := by decide

theorem witness_W1FormatsReturnTheirByte :
    (Instr.w1_6 0xFC).WellFormed ∧ (launch [0xFC] 0 []).off < (launch [0xFC] 0 []).cap := by decide

/-- Exactly as many bytes as each format has. -/
theorem witness_SentinelFormatsReturnTheirPayload :
    0 + 3 ≤ (launch (List.replicate 3 0) 0 []).cap ∧ 0 + 5 ≤ (launch (List.replicate 5 0) 0 []).cap ∧
    0 + 9 ≤ (launch (List.replicate 9 0) 0 []).cap := by decide

/-- No byte left; one byte too few; one byte. -/
theorem witness_WireFormatsCutShortFail :
    (Instr.w3 0).WellFormed ∧ (Instr.w5 0).WellFormed ∧ (launch [0xFD, 0, 0] 3 []).off = (launch [0xFD, 0, 0] 3 []).cap ∧
    encode (.w3 0) = .wire [0xFD, 0, 0] ∧ (launch [0xFD, 0] 0 []).cap - 0 < [0xFD, 0, (0 : Byte)].length ∧
    encode (.w5 0) = .wire [0xFE, 0, 0, 0, 0] ∧ (launch [0xFE] 0 []).cap - 0 < [0xFE, 0, 0, 0, (0 : Byte)].length := by
  decide

theorem witness_EveryCommandAnswersOnce :
    (launch [] 0 []).off ≤ (launch [] 0 []).cap ∧ Instr.dec ≠ .reservedOp3 := by decide

theorem witness_FailureConsumesAtMostOneByte :
    (after (exec (.enc 0xFD) (launch [0xAA, 0xAA] 0 []))).map (·.responses) = some ([] ++ [ib]) := by decide

theorem witness_FullBufferFailsEveryLaterCommand :
    ∃ s : State, s.off = s.cap ∧ s.pending = [decInput, encInput 0] ∧
      ∀ x ∈ [decInput, encInput 0], x = decInput ∨ ∃ v, x = encInput v :=
  ⟨launch [1] 1 [decInput, encInput 0], rfl, rfl, fun x hx => by
    rcases List.mem_cons.mp hx with rfl | hx
    · exact .inl rfl
    · exact .inr ⟨0, List.mem_singleton.mp hx⟩⟩

/-- One command of each kind that gives a next state. -/
theorem witness_ResponseFieldsByCommand :
    (after (exec (.sizeof 0) (launch [] 0 []))).isSome ∧ (after (exec (.enc 0) (launch [] 0 []))).isSome ∧
    (after (exec .dec (launch [] 0 []))).isSome ∧ (after (exec (.w9 0) (launch [] 0 []))).isSome := by decide

theorem witness_ReservedCodeRefusedAndDecFieldIgnored : (launch [] 0 []).off ≤ (launch [] 0 []).cap := by decide

theorem witness_OffsetPastCapacityRefused :
    (launch [] 1 []).cap < (launch [] 1 []).off ∧ Instr.dec ≠ .reservedOp3 ∧ ∀ v, Instr.dec ≠ .sizeof v :=
  ⟨by decide, by decide, fun _ h => Instr.noConfusion h⟩

/-- A payload granted, one denied, and none asked for. -/
theorem witness_OneOrTwoReservationsACommand :
    (launch [0, 0, 0] 0 []).mem.wf ∧
    (after (exec (.enc 0xFD) (launch [0, 0, 0] 0 []))).map (·.bus) =
      some [⟨1, true, true, [0xFD]⟩, ⟨2, true, true, [0xFD, 0x00]⟩] ∧
    (after (exec (.enc 0xFD) (launch [0, 0] 0 []))).map (·.bus) =
      some [⟨1, true, true, [0xFD]⟩, ⟨2, true, false, []⟩] ∧
    (after (exec .dec (launch [0] 0 []))).map (·.bus) = some [⟨1, false, true, [0]⟩] := by decide

/-- The buffer `10 99` and the same bytes moved by 3. -/
theorem witness_CommandsAreBlindToPlacement :
    (after (exec .dec (launch [0x10, 0x99] 0 []))).isSome ∧
    ∀ a < 2, getByte (a + 3) [(3, 0x10), (4, 0x99)] = byteAt (launch [0x10, 0x99] 0 []) a := by decide

theorem witness_OnlyEncWritesMemory : (after (exec .dec (launch [0x10] 0 []))).isSome := by decide

theorem witness_StepRunsTheDecodedInstruction :
    (launch [] 0 [.command 0x2_0000000000000000]).off ≤ (launch [] 0 [.command 0x2_0000000000000000]).cap ∧
    decode (.command 0x2_0000000000000000) = .ok .dec ∧
    (after (exec .dec (launch [] 0 [.command 0x2_0000000000000000]))).isSome := by decide

theorem witness_StepRunsTheWireFormatAtTheOffset :
    0 + [0xFD, 0, (0 : Byte)].length ≤ (launch [0xFD, 0, 0] 0 [decInput]).cap ∧
    getBytes 0 3 (launch [0xFD, 0, 0] 0 [decInput]).mem = [0xFD, 0, 0] ∧
    decode (.wire [0xFD, 0, 0]) = .ok (.w3 0) := by decide

/-- Each move at the boundary of what the contract allows, and one past it. -/
theorem witness_HostMovesKeepTheContract_off :
    seen (step (launch [1, 2] 0 [.host (.seek 2)])) = some (2, [], [1, 2]) ∧
    seen (step (launch [1, 2] 0 [.host (.fill 1 [9])])) = some (0, [], [1, 9]) ∧
    seen (step (launch [1, 2] 0 [.host (.fill 2 [9])])) = none ∧
    seen (step (launch [1, 2] 2 [.host (.grow [7])])) = some (2, [], [1, 2, 7]) := by decide

theorem witness_HostMovesKeepTheContract :
    seen (step (launch [1, 2] 1 [.host (.shrink 1)])) = some (1, [], [1]) ∧
    seen (step (launch [1, 2] 1 [.host (.shrink 0)])) = none ∧
    seen (step (launch [1, 2] 1 [.host (.shrink 3)])) = none ∧
    seen (step (launch [1, 2] 1 [.host (.swap [3, 4])])) = some (1, [], [3, 4]) ∧
    seen (step (launch [1, 2] 1 [.host (.swap [3])])) = none ∧
    seen (step (launch [1, 2] 1 [.host (.peek 1)])) = some (1, [], [1, 2]) ∧
    seen (step (launch [1, 2] 1 [.host (.peek 2)])) = none := by decide

theorem witness_OneInputAStep : (after (step (launch [0x10] 0 [decInput]))).isSome ∧
    (after (step (launch [0x10] 0 [.host (.peek 0)]))).isSome := by decide

theorem witness_EveryStepKeepsTheBoundaryInvariant :
    (launch [0x10, 2] 0 [encInput 5]).Inv ∧ (after (step (launch [0x10, 2] 0 [encInput 5]))).isSome :=
  ⟨⟨by decide, by decide, by decide, by decide, by decide⟩, by decide⟩

theorem witness_RunEndsWhenInputsAreExhausted :
    (launch [0x10, 2] 0 [encInput 5, decInput]).Inv ∧
      (after (runInputs 2 (launch [0x10, 2] 0 [encInput 5, decInput]))).isSome :=
  ⟨⟨by decide, by decide, by decide, by decide, by decide⟩, by decide⟩

/-- `0xFD` into exactly 3 bytes. -/
theorem witness_RoundTripReturnsTheValue :
    ∃ s : State, s.off ≤ s.cap ∧ s.mem.wf ∧ (encodedSize 0xFD).toNat ≤ s.cap - s.off ∧
      s.pending = encInput 0xFD :: .host (.seek s.off) :: decInput :: [] :=
  ⟨launch [1, 2, 3] 0 [encInput 0xFD, .host (.seek 0), decInput], by decide, by decide, by decide, rfl⟩

/-- Two values into exactly the bytes they take. -/
theorem witness_SequenceRoundTripReturnsTheValues :
    ∃ s : State, s.off ≤ s.cap ∧ s.mem.wf ∧ totalSize [0xFD, 7] ≤ s.cap - s.off ∧
      s.pending = [0xFD, 7].map encInput ++ .host (.seek s.off) :: [0xFD, (7 : Word)].map (fun _ => decInput) :=
  ⟨launch [1, 2, 3, 4] 0 [encInput 0xFD, encInput 7, .host (.seek 0), decInput, decInput], by decide, by decide,
    by decide, rfl⟩

theorem witness_PresizingPredictsEnc :
    ∃ s : State, s.off ≤ s.cap ∧ s.pending = sizeofInput 0xFD :: encInput 0xFD :: [] :=
  ⟨launch [1, 2] 0 [sizeofInput 0xFD, encInput 0xFD], by decide, rfl⟩

/-- The last value in range in decimal, the first out of it in hexadecimal, with nothing and with a comment after. -/
theorem witness_AssemblerNeverTruncates :
    IsDecimalNumeral
      ['1', '8', '4', '4', '6', '7', '4', '4', '0', '7', '3', '7', '0', '9', '5', '5', '1', '6', '1', '5'] (2 ^ 64 - 1) ∧
    IsHexNumeral ('0' :: 'x' :: '1' :: List.replicate 16 '0') (2 ^ 64) ∧ IsLineEnd [] ∧ IsLineEnd [' ', ';', 'x'] :=
  ⟨⟨[1, 8, 4, 4, 6, 7, 4, 4, 0, 7, 3, 7, 0, 9, 5, 5, 1, 6, 1, 5], by decide, by decide, rfl⟩,
    ⟨(1, true) :: List.replicate 16 (0, true), by decide, by decide, rfl⟩, ⟨0, [], rfl, .inl rfl⟩,
    ⟨1, [';', 'x'], rfl, .inr rfl⟩⟩

end Sys2Proof.Tests
end

section
/-! PROOFS. The family 10_state.md. One varint is written or read by one transaction on the buffer: a reservation for
the first byte and one for the payload (20_memory.md R31). The first part says once what a transaction leaves, and that
`ENC`, `DEC` and the wire-format rows are such transactions; then come the inversion lemmas of `exec`, `hostMove` and
`step`, and the statements. -/

namespace Sys2Proof.Proofs

open Sys2Proof.Machine

/-! ### One transaction -/

/-- What one varint asks of the buffer: a first byte and `payloadSize` more bytes, their lanes, and the response when
all of it is granted. -/
structure Transaction where
  write : Bool
  first : Byte
  payloadSize : Nat
  payload : List Byte
  done : Response

namespace Transaction

variable (x : Transaction) (r : Nat) (m : Memory) (s : State)

/-- The bytes of the whole varint. -/
def size : Nat := 1 + x.payloadSize

/-- How far `OFF` moves with `r` bytes left: a granted first byte stays granted (40_encode.md R73, 41_decode.md R83). -/
def consumed : Nat := if x.size ≤ r then x.size else min r 1

/-- The response with `r` bytes left. -/
def response : Response := if x.size ≤ r then x.done else insufficientBufferResponse

/-- The transfers with `r` bytes left (20_memory.md R31, 10_state.md R132). -/
def transfers : List Transfer :=
  if r = 0 then [⟨1, x.write, false, []⟩]
  else ⟨1, x.write, true, [x.first]⟩ ::
    if x.payloadSize = 0 then []
    else if x.size ≤ r then [⟨BitVec.ofNat 4 x.payloadSize, x.write, true, x.payload⟩]
    else [⟨BitVec.ofNat 4 x.payloadSize, x.write, false, []⟩]

/-- The state after the transaction, with `m` as the content of `MEM`. -/
def after : State where
  mem := m
  off := s.off + x.consumed (remaining s)
  cap := s.cap
  pending := s.pending.tail
  responses := s.responses ++ [x.response (remaining s)]
  bus := s.bus ++ x.transfers (remaining s)

@[simp] theorem after_mem : (x.after m s).mem = m := rfl
@[simp] theorem after_off : (x.after m s).off = s.off + x.consumed (remaining s) := rfl
@[simp] theorem after_cap : (x.after m s).cap = s.cap := rfl
@[simp] theorem after_pending : (x.after m s).pending = s.pending.tail := rfl
@[simp] theorem after_responses : (x.after m s).responses = s.responses ++ [x.response (remaining s)] := rfl
@[simp] theorem after_bus : (x.after m s).bus = s.bus ++ x.transfers (remaining s) := rfl

theorem consumed_le_remaining : x.consumed r ≤ r := by
  unfold consumed
  split <;> omega

theorem consumed_le_size : x.consumed r ≤ x.size := by
  unfold consumed size
  split <;> omega

variable {x r s}

/-- No byte left: only the first byte is asked for, and denied. -/
theorem after_of_full (h : s.cap = s.off) :
    x.after s.mem s = (s.transfer 1 x.write false []).respond insufficientBufferResponse := by
  simp [after, State.respond, State.transfer, consumed, response, transfers, remaining, size, h]

/-- A varint of one byte, granted. -/
theorem after_of_single (h : s.off < s.cap) (hz : x.payloadSize = 0) :
    x.after m s =
      (State.transfer 1 x.write true [x.first] { s with mem := m, off := s.off + 1 }).respond x.done := by
  simp [after, State.respond, State.transfer, consumed, response, transfers, remaining, size, hz,
    show 1 ≤ s.cap - s.off by omega, show s.cap - s.off ≠ 0 by omega]

/-- First byte and payload, both granted. -/
theorem after_of_fits (h : s.off + x.size ≤ s.cap) (hz : x.payloadSize ≠ 0) :
    x.after m s =
      ((State.transfer 1 x.write true [x.first] { s with mem := m, off := s.off + x.size }).transfer x.payloadSize
        x.write true x.payload).respond x.done := by
  simp only [size] at h
  simp [after, State.respond, State.transfer, consumed, response, transfers, remaining, size, hz,
    show 1 + x.payloadSize ≤ s.cap - s.off by omega, show s.cap - s.off ≠ 0 by omega]

/-- The first byte granted, the payload denied. -/
theorem after_of_cut (h : s.off < s.cap) (hn : s.cap < s.off + x.size) :
    x.after m s =
      ((State.transfer 1 x.write true [x.first] { s with mem := m, off := s.off + 1 }).transfer x.payloadSize
        x.write false []).respond insufficientBufferResponse := by
  simp only [size] at hn
  simp [after, State.respond, State.transfer, consumed, response, transfers, remaining, size,
    show ¬1 + x.payloadSize ≤ s.cap - s.off by omega, show s.cap - s.off ≠ 0 by omega,
    show x.payloadSize ≠ 0 by omega, show min (s.cap - s.off) 1 = 1 by omega]

end Transaction

@[simp] theorem orRaise_granted {α : Type} (a : α) (s : State) (k : α → State → Out) :
    (Access.granted a s).orRaise k = k a s := rfl

@[simp] theorem orRaise_denied {α : Type} (s : State) (k : α → State → Out) :
    (Access.denied s).orRaise k = .next (s.respond insufficientBufferResponse) := rfl

@[simp] theorem orRaise_refused {α : Type} (e : Refusal) (k : α → State → Out) :
    (Access.refused e).orRaise k = .refused e := rfl

/-! ### Decoding is a transaction -/

/-- The transaction that reads an encoding. -/
def decoding (b0 : Byte) (payload : List Byte) : Transaction :=
  ⟨false, b0, payloadLen b0, payload, resultResponse (decodedValue b0 payload)⟩

theorem takeEncoding_of_past {b0 : Byte} {payload : List Byte} {s : State} (h : s.cap < s.off) :
    takeEncoding b0 payload s = .refused .offsetPastCapacity := by
  rw [takeEncoding_eq, if_pos h]

theorem takeEncoding_of_inside {b0 : Byte} {payload : List Byte} {s : State} (h : s.off ≤ s.cap) :
    takeEncoding b0 payload s = .next ((decoding b0 payload).after s.mem s) := by
  rw [takeEncoding_eq, if_neg (Nat.not_lt.mpr h)]
  split
  · next hfull => rw [Transaction.after_of_full hfull]; rfl
  · next hfull =>
    have hlt : s.off < s.cap := by omega
    dsimp only
    split
    · next hz => rw [Transaction.after_of_single (x := decoding b0 payload) s.mem hlt hz]; rfl
    · next hz =>
      split
      · next hfit => rw [Transaction.after_of_fits (x := decoding b0 payload) s.mem hfit hz]; rfl
      · next hfit => rw [Transaction.after_of_cut (x := decoding b0 payload) s.mem hlt (Nat.lt_of_not_le hfit)]; rfl

/-- A load whose answer is used is the load of the known bytes. -/
theorem load_orRaise (n : Nat) (s : State) (k : List Byte → State → Out) :
    (load n s).orRaise k =
      (loadKnown n (getBytes s.off n s.mem) s).orRaise fun _ => k (getBytes s.off n s.mem) := by
  rw [load_eq, loadKnown_eq]
  split_ifs <;> rfl

theorem decodedValue_of_single {p : Byte} {payload : List Byte} (h : payloadLen p = 0) :
    decodedValue p payload = p.setWidth 64 := if_pos h

/-- `DEC` takes the encoding that stands at `OFF`. -/
theorem execDec_eq_takeEncoding (s : State) :
    execDec s =
      takeEncoding (byteAt s s.off) (getBytes (s.off + 1) (payloadLen (byteAt s s.off)) s.mem) s := by
  have hlane : getBytes s.off 1 s.mem = [byteAt s s.off] := rfl
  have hfirst : BitVec.ofNat 8 (leValue [byteAt s s.off]) = byteAt s s.off := leValue_getBytes_one s.off s.mem
  simp only [execDec, takeEncoding, load_orRaise 1, hlane, hfirst, loadKnown_eq 1]
  by_cases hpast : s.cap < s.off
  · simp only [if_pos hpast, orRaise_refused]
  by_cases hfit : s.off + 1 ≤ s.cap
  · simp only [if_neg hpast, if_pos hfit, orRaise_granted]
    split
    · next hz => simp only [decodedValue_of_single hz]
    · exact load_orRaise _ _ _
  · simp only [if_neg hpast, if_neg hfit, orRaise_denied]

/-! ### `ENC` is a transaction -/

/-- The transaction that writes the canonical encoding of a value. -/
def encoding (v : Word) : Transaction :=
  ⟨true, prefixByte v, payloadBytes (tier v), leBytes v (payloadBytes (tier v)), okResponse⟩

/-- The bytes that `ENC` writes with `r` bytes left. -/
def bytesWritten (v : Word) (r : Nat) : List Byte :=
  (prefixByte v :: leBytes v (payloadBytes (tier v))).take ((encoding v).consumed r)

/-- `MEM` after `ENC`. -/
def memAfterEnc (v : Word) (m : Memory) (s : State) : Memory := setBytes s.off (bytesWritten v (remaining s)) m

theorem encoding_length (v : Word) :
    (prefixByte v :: leBytes v (payloadBytes (tier v))).length = (encoding v).size := by
  simp [Transaction.size, encoding, Nat.add_comm]

theorem bytesWritten_length (v : Word) (r : Nat) : (bytesWritten v r).length = (encoding v).consumed r := by
  rw [bytesWritten, List.length_take, encoding_length, min_eq_left ((encoding v).consumed_le_size r)]

theorem leBytes_single (b : Byte) : leBytes (b.setWidth 64) 1 = [b] := by
  rw [leBytes_succ]
  simp [leBytes]

theorem execEnc_of_past {v : Word} {s : State} (h : s.cap < s.off) : execEnc v s = .refused .offsetPastCapacity := by
  simp only [execEnc, store_eq, if_pos h, orRaise_refused]

theorem bytesWritten_of_full (v : Word) : bytesWritten v 0 = [] := by
  simp [bytesWritten, Transaction.consumed, Transaction.size]

/-- Too few bytes for the whole encoding: the first byte alone. -/
theorem bytesWritten_of_cut {v : Word} {r : Nat} (h0 : 0 < r) (h : r < (encoding v).size) :
    bytesWritten v r = [prefixByte v] := by
  simp [bytesWritten, Transaction.consumed, Nat.not_le.mpr h, Nat.min_eq_right h0]

theorem bytesWritten_of_fits {v : Word} {r : Nat} (h : (encoding v).size ≤ r) :
    bytesWritten v r = prefixByte v :: leBytes v (payloadBytes (tier v)) := by
  rw [bytesWritten, Transaction.consumed, if_pos h, ← encoding_length, List.take_length]

theorem execEnc_of_inside {v : Word} {s : State} (h : s.off ≤ s.cap) :
    execEnc v s = .next ((encoding v).after (memAfterEnc v s.mem s) s) := by
  simp only [execEnc, store_eq 1, if_neg (Nat.not_lt.mpr h), leBytes_single]
  by_cases hfull : s.cap = s.off
  · have hm : memAfterEnc v s.mem s = s.mem := by
      simp [memAfterEnc, remaining, hfull, bytesWritten_of_full, setBytes]
    rw [hm, Transaction.after_of_full hfull, if_neg (by omega : ¬s.off + 1 ≤ s.cap)]
    rfl
  have hlt : s.off < s.cap := by omega
  rw [if_pos (by omega : s.off + 1 ≤ s.cap), orRaise_granted]
  by_cases hz : payloadBytes (tier v) = 0
  · have hm : memAfterEnc v s.mem s = setBytes s.off [prefixByte v] s.mem := by
      rw [memAfterEnc, bytesWritten_of_fits (by simp only [Transaction.size, encoding, remaining]; omega), hz]
      rfl
    rw [if_pos hz, Transaction.after_of_single (x := encoding v) _ hlt hz, hm]
    rfl
  have hsize : s.off + (encoding v).size = s.off + 1 + payloadBytes (tier v) := (Nat.add_assoc ..).symm
  simp only [if_neg hz, store_eq, State.transfer_cap, State.transfer_off, State.transfer_mem,
    if_neg (Nat.not_lt.mpr hlt), ← hsize]
  by_cases hfit : s.off + (encoding v).size ≤ s.cap
  · have hm : memAfterEnc v s.mem s =
        setBytes (s.off + 1) (leBytes v (payloadBytes (tier v))) (setBytes s.off [prefixByte v] s.mem) := by
      rw [memAfterEnc, bytesWritten_of_fits (by simp only [remaining]; omega)]
      rfl
    rw [Transaction.after_of_fits (x := encoding v) _ hfit hz, hm, if_pos hfit]
    rfl
  · have hm : memAfterEnc v s.mem s = setBytes s.off [prefixByte v] s.mem := by
      rw [memAfterEnc, bytesWritten_of_cut] <;> simp only [remaining] <;> omega
    rw [Transaction.after_of_cut (x := encoding v) _ hlt (Nat.lt_of_not_le hfit), hm, if_neg hfit]
    rfl

/-! ### What `exec` can do -/

/-- The first byte and the payload bytes that a decoding row reads: `DEC` those at `OFF`, a wire-format row its own. -/
def encodingRead : Instr → State → Option (Byte × List Byte)
  | .sizeof _, _ | .enc _, _ | .reservedOp3, _ => none
  | .dec, s => some (byteAt s s.off, getBytes (s.off + 1) (payloadLen (byteAt s s.off)) s.mem)
  | .w1_0 b0, _ | .w1_1 b0, _ | .w1_2 b0, _ | .w1_3 b0, _ | .w1_4 b0, _ | .w1_5 b0, _ | .w1_6 b0, _ => some (b0, [])
  | .w3 payload, _ => some (0xFD#8, leBytes (payload.setWidth 64) 2)
  | .w5 payload, _ => some (0xFE#8, leBytes (payload.setWidth 64) 4)
  | .w9 payload, _ => some (0xFF#8, leBytes payload 8)

theorem exec_sizeof (v : Word) (s : State) :
    exec (.sizeof v) s = .next (s.respond (sizeResponse (encodedSize v))) := rfl

theorem exec_enc (v : Word) (s : State) : exec (.enc v) s = execEnc v s := rfl

/-- A decoding row is the decoder's transaction on the encoding it reads. -/
theorem exec_of_encodingRead {i : Instr} {s : State} {b0 : Byte} {payload : List Byte}
    (h : encodingRead i s = some (b0, payload)) : exec i s = takeEncoding b0 payload s := by
  cases i with
  | sizeof | enc | reservedOp3 => cases h
  | dec => cases h; exact execDec_eq_takeEncoding s
  | w1_0 | w1_1 | w1_2 | w1_3 | w1_4 | w1_5 | w1_6 | w3 | w5 | w9 => cases h; rfl

/-- The four kinds of instruction. -/
theorem instr_cases (i : Instr) (s : State) :
    (∃ v, i = .sizeof v) ∨ (∃ v, i = .enc v) ∨ i = .reservedOp3 ∨
      ∃ b0 payload, encodingRead i s = some (b0, payload) := by
  cases i with
  | sizeof v => exact .inl ⟨v, rfl⟩
  | enc v => exact .inr (.inl ⟨v, rfl⟩)
  | reservedOp3 => exact .inr (.inr (.inl rfl))
  | dec | w1_0 | w1_1 | w1_2 | w1_3 | w1_4 | w1_5 | w1_6 | w3 | w5 | w9 => exact .inr (.inr (.inr ⟨_, _, rfl⟩))

/-- No decoding row is a `SIZEOF` or an `ENC`. -/
theorem ne_of_encodingRead {i : Instr} {s : State} {e : Byte × List Byte} (h : encodingRead i s = some e) :
    (¬∃ v, i = .sizeof v) ∧ ¬∃ v, i = .enc v := by
  constructor <;> rintro ⟨v, rfl⟩ <;> cases h

/-- Past the capacity there is no transaction. -/
theorem exec_of_past {i : Instr} {s : State} (h : s.cap < s.off) (hr : i ≠ .reservedOp3) (hs : ∀ v, i ≠ .sizeof v) :
    exec i s = .refused .offsetPastCapacity := by
  rcases instr_cases i s with ⟨v, rfl⟩ | ⟨v, rfl⟩ | rfl | ⟨b0, payload, hread⟩
  · exact absurd rfl (hs v)
  · exact execEnc_of_past h
  · exact absurd rfl hr
  · rw [exec_of_encodingRead hread, takeEncoding_of_past h]

/-- Everything an instruction that gives a next state can have done. -/
theorem exec_next_cases {i : Instr} {s t : State} (h : exec i s = .next t) :
    (∃ v, i = .sizeof v ∧ t = s.respond (sizeResponse (encodedSize v))) ∨
      (∃ v, i = .enc v ∧ s.off ≤ s.cap ∧ t = (encoding v).after (memAfterEnc v s.mem s) s) ∨
      ∃ b0 payload, encodingRead i s = some (b0, payload) ∧ s.off ≤ s.cap ∧
        t = (decoding b0 payload).after s.mem s := by
  rcases instr_cases i s with ⟨v, rfl⟩ | ⟨v, rfl⟩ | rfl | ⟨b0, payload, hread⟩
  · cases h; exact .inl ⟨v, rfl, rfl⟩
  · rcases Nat.lt_or_ge s.cap s.off with hs | hs
    · rw [exec_enc, execEnc_of_past hs] at h; cases h
    · rw [exec_enc, execEnc_of_inside hs] at h
      cases h
      exact .inr (.inl ⟨v, rfl, hs, rfl⟩)
  · cases h
  · rcases Nat.lt_or_ge s.cap s.off with hs | hs
    · rw [exec_of_encodingRead hread, takeEncoding_of_past hs] at h; cases h
    · rw [exec_of_encodingRead hread, takeEncoding_of_inside hs] at h
      cases h
      exact .inr (.inr ⟨b0, payload, hread, hs, rfl⟩)

/-- A command leaves the port with one response (10_state.md R131). -/
theorem exec_takes_command {i : Instr} {s t : State} (h : exec i s = .next t) :
    t.pending = s.pending.tail ∧ ∃ r, t.responses = s.responses ++ [r] := by
  rcases exec_next_cases h with ⟨v, -, rfl⟩ | ⟨v, -, -, rfl⟩ | ⟨b0, payload, -, -, rfl⟩ <;> exact ⟨rfl, _, rfl⟩

/-! ### What `hostMove` and `step` can do -/

/-- Everything a host move that gives a next state can have done. -/
theorem hostMove_next_cases {move : HostMove} {s t : State} (h : hostMove move s = .next t) :
    (∃ o, move = .seek o ∧ o ≤ s.cap ∧ t = { s with pending := s.pending.tail, off := o }) ∨
      (∃ a bytes, move = .fill a bytes ∧ a + bytes.length ≤ s.cap ∧
        t = { s with pending := s.pending.tail, mem := setBytes a bytes s.mem }) ∨
      (∃ bytes, move = .grow bytes ∧
        t = { s with pending := s.pending.tail, mem := setBytes s.cap bytes s.mem, cap := s.cap + bytes.length }) ∨
      (∃ c, move = .shrink c ∧ (s.off ≤ c ∧ c ≤ s.cap) ∧
        t = { s with pending := s.pending.tail, mem := keepBelow c s.mem, cap := c }) ∨
      (∃ bytes, move = .swap bytes ∧ bytes.length = s.cap ∧
        t = { s with pending := s.pending.tail, mem := setBytes 0 bytes [] }) ∨
      (∃ a, move = .peek a ∧ a < s.cap ∧ t = { s with pending := s.pending.tail }) := by
  cases move <;> simp only [hostMove] at h
  case grow bytes => cases h; simp
  all_goals
    split at h
    · next hc => cases h; simp [hc]
    · cases h

/-- A host move is taken off the list and gives neither response nor transfer (30_encoding.md R66). -/
theorem hostMove_frame {move : HostMove} {s t : State} (h : hostMove move s = .next t) :
    t.pending = s.pending.tail ∧ t.responses = s.responses ∧ t.bus = s.bus := by
  rcases hostMove_next_cases h with ⟨o, -, -, rfl⟩ | ⟨a, bytes, -, -, rfl⟩ | ⟨bytes, -, rfl⟩ | ⟨c, -, -, rfl⟩ |
    ⟨bytes, -, -, rfl⟩ | ⟨a, -, -, rfl⟩ <;> exact ⟨rfl, rfl, rfl⟩

theorem step_of_past {s : State} (h : s.cap < s.off) : step s = .refused .offsetPastCapacity := by
  simp [step, fetch, h]

theorem step_of_command {s : State} {c : CommandWord} {rest : List Input} (h : s.off ≤ s.cap)
    (hp : s.pending = .command c :: rest) : step s = exec (decodeCommand c) s := by
  simp [step, fetch, Nat.not_lt.mpr h, hp]

theorem step_of_host {s : State} {move : HostMove} {rest : List Input} (h : s.off ≤ s.cap)
    (hp : s.pending = .host move :: rest) : step s = hostMove move s := by
  simp [step, fetch, Nat.not_lt.mpr h, hp]

theorem step_of_idle {s : State} (h : s.off ≤ s.cap) (hp : s.pending = []) : step s = .refused .noInputPresented := by
  simp [step, fetch, Nat.not_lt.mpr h, hp]

/-- A step that gives a next state ran the first presented input. -/
theorem step_next_cases {s t : State} (h : step s = .next t) :
    (∃ c rest, s.pending = .command c :: rest ∧ exec (decodeCommand c) s = .next t) ∨
      ∃ move rest, s.pending = .host move :: rest ∧ hostMove move s = .next t := by
  rcases Nat.lt_or_ge s.cap s.off with hs | hs
  · rw [step_of_past hs] at h; cases h
  · match hp : s.pending with
    | [] => rw [step_of_idle hs hp] at h; cases h
    | .command c :: rest => exact .inl ⟨c, rest, rfl, step_of_command hs hp ▸ h⟩
    | .host move :: rest => exact .inr ⟨move, rest, rfl, step_of_host hs hp ▸ h⟩

/-! ### The invariant of a command boundary -/

theorem encodedSize_cases (v : Word) :
    encodedSize v = 1 ∨ encodedSize v = 3 ∨ encodedSize v = 5 ∨ encodedSize v = 9 := by
  unfold encodedSize
  split_ifs <;> simp

theorem sizeResponse_legal (v : Word) : (sizeResponse (encodedSize v)).legal := by
  rcases encodedSize_cases v with h | h | h | h <;> simp [h, Response.legal]

theorem resultResponse_legal (v : Word) : (resultResponse v).legal := .inr (.inr (.inl ⟨rfl, rfl, rfl⟩))

/-- A transaction that the contract allows: a payload of 0, 2, 4 or 8 bytes (20_memory.md R31) and a legal response. -/
structure Transaction.Legal (x : Transaction) : Prop where
  payloadSize : x.payloadSize = 0 ∨ x.payloadSize = 2 ∨ x.payloadSize = 4 ∨ x.payloadSize = 8
  payload_length : x.payload.length = x.payloadSize
  done : x.done.legal

theorem Transaction.Legal.response {x : Transaction} (h : x.Legal) (r : Nat) : (x.response r).legal := by
  unfold Transaction.response
  split
  · exact h.done
  · exact .inr (.inl rfl)

theorem Transaction.Legal.transfers {x : Transaction} (h : x.Legal) (r : Nat) : ∀ y ∈ x.transfers r, y.legal := by
  obtain ⟨hsize, hlen, -⟩ := h
  unfold Transaction.transfers
  split
  · simp [Transfer.legal]
  · rcases hsize with hz | hz | hz | hz <;> rw [hz] at hlen <;> split_ifs <;> simp_all [Transfer.legal]

theorem payloadBytes_mem (c : Tier) :
    payloadBytes c = 0 ∨ payloadBytes c = 2 ∨ payloadBytes c = 4 ∨ payloadBytes c = 8 := by
  cases c <;> simp [payloadBytes]

theorem payloadLen_mem (p : Byte) : payloadLen p = 0 ∨ payloadLen p = 2 ∨ payloadLen p = 4 ∨ payloadLen p = 8 := by
  rcases payloadLen_cases p with ⟨-, h⟩ | ⟨-, h⟩ | ⟨-, h⟩ | ⟨-, -, -, h⟩ <;> simp [h]

theorem encoding_legal (v : Word) : (encoding v).Legal where
  payloadSize := payloadBytes_mem (tier v)
  payload_length := leBytes_length
  done := .inl rfl

theorem decoding_legal {b0 : Byte} {payload : List Byte} (h : payload.length = payloadLen b0) :
    (decoding b0 payload).Legal where
  payloadSize := payloadLen_mem b0
  payload_length := h
  done := resultResponse_legal _

theorem respond_inv {s : State} {r : Response} (hs : s.Inv) (hr : r.legal) : (s.respond r).Inv :=
  { hs with responses_legal := by simpa [or_imp, forall_and] using ⟨hs.responses_legal, hr⟩ }

/-- A legal transaction keeps the invariant, when what it leaves in `MEM` is canonical and below `CAP`. -/
theorem after_inv {x : Transaction} {m : Memory} {s : State} (hx : x.Legal) (hs : s.Inv) (hm : m.wf)
    (hlt : ∀ c ∈ m, c.1 < s.cap) : (x.after m s).Inv where
  off_le_cap := by
    have hle := x.consumed_le_remaining (remaining s)
    have hoff := hs.off_le_cap
    simp only [remaining, Transaction.after_off, Transaction.after_cap] at hle ⊢
    omega
  mem_wf := hm
  mem_lt_cap := hlt
  responses_legal := fun r hr => by
    rcases List.mem_append.mp hr with hr | hr
    · exact hs.responses_legal r hr
    · exact List.mem_singleton.mp hr ▸ hx.response _
  bus_legal := fun y hy => (List.mem_append.mp hy).elim (hs.bus_legal y) (hx.transfers _ y)

/-- A span written below the capacity leaves every cell below it. -/
theorem setBytes_lt_cap {a cap : Nat} {bytes : List Byte} {m : Memory} (h : a + bytes.length ≤ cap)
    (hm : ∀ c ∈ m, c.1 < cap) : ∀ c ∈ setBytes a bytes m, c.1 < cap := fun c hc => by
  rcases mem_setBytes hc with hc | hc
  · exact hm c hc
  · omega

theorem enc_inv {v : Word} {s : State} (hs : s.Inv) : ((encoding v).after (memAfterEnc v s.mem s) s).Inv := by
  refine after_inv (encoding_legal v) hs (setBytes_wf hs.mem_wf) (setBytes_lt_cap ?_ hs.mem_lt_cap)
  have hle := (encoding v).consumed_le_remaining (remaining s)
  have hoff := hs.off_le_cap
  rw [bytesWritten_length]
  simp only [remaining] at hle ⊢
  omega

/-- A decoded command word is no wire-format row: what it reads has the length its first byte calls for. -/
theorem encodingRead_decodeCommand {c : CommandWord} {s : State} {b0 : Byte} {payload : List Byte}
    (h : encodingRead (decodeCommand c) s = some (b0, payload)) : payload.length = payloadLen b0 := by
  unfold decodeCommand at h
  split_ifs at h <;> cases h
  exact getBytes_length

theorem command_keeps_inv {c : CommandWord} {s t : State} (hs : s.Inv) (h : exec (decodeCommand c) s = .next t) :
    t.Inv := by
  rcases exec_next_cases h with ⟨v, -, rfl⟩ | ⟨v, -, -, rfl⟩ | ⟨b0, payload, hread, -, rfl⟩
  · exact respond_inv hs (sizeResponse_legal v)
  · exact enc_inv hs
  · exact after_inv (decoding_legal (encodingRead_decodeCommand hread)) hs hs.mem_wf hs.mem_lt_cap

theorem hostMove_keeps_inv {move : HostMove} {s t : State} (hs : s.Inv) (h : hostMove move s = .next t) : t.Inv := by
  rcases hostMove_next_cases h with ⟨o, -, ho, rfl⟩ | ⟨a, bytes, -, hfit, rfl⟩ | ⟨bytes, -, rfl⟩ | ⟨c, -, hc, rfl⟩ |
    ⟨bytes, -, hlen, rfl⟩ | ⟨a, -, -, rfl⟩
  · exact { hs with off_le_cap := ho }
  · exact { hs with mem_wf := setBytes_wf hs.mem_wf, mem_lt_cap := setBytes_lt_cap hfit hs.mem_lt_cap }
  · exact { hs with
      off_le_cap := hs.off_le_cap.trans (Nat.le_add_right ..)
      mem_wf := setBytes_wf hs.mem_wf
      mem_lt_cap := setBytes_lt_cap le_rfl fun c hc => (hs.mem_lt_cap c hc).trans_le (Nat.le_add_right ..) }
  · exact { hs with off_le_cap := hc.1, mem_wf := keepBelow_wf hs.mem_wf, mem_lt_cap := fun _ => mem_keepBelow }
  · exact { hs with
      mem_wf := setBytes_wf Memory.wf_nil
      mem_lt_cap := setBytes_lt_cap (by simp [hlen]) (by simp) }
  · exact { hs with }

/-- Settles O41: a step is a command or a host move, and each keeps the invariant. -/
theorem everyStepKeepsTheBoundaryInvariant : Obligations.EveryStepKeepsTheBoundaryInvariant := by
  intro s t hs h
  rcases step_next_cases h with ⟨c, rest, -, h⟩ | ⟨move, rest, -, h⟩
  · exact command_keeps_inv hs h
  · exact hostMove_keeps_inv hs h

/-! ### The statements about one command -/

theorem getByte_memAfterEnc_inside {v : Word} {m : Memory} {s : State} {a : Nat} (hm : m.wf) (ha : s.off ≤ a)
    (h : a - s.off < (bytesWritten v (remaining s)).length) :
    getByte a (memAfterEnc v m s) = (bytesWritten v (remaining s))[a - s.off] := by
  obtain ⟨j, rfl⟩ := Nat.exists_eq_add_of_le ha
  rw [memAfterEnc, getByte_setBytes_inside hm (by simpa using h)]
  simp

/-- Settles O19: the transaction of `ENC` is made of the value and the remaining capacity alone, and so are the bytes
it writes. -/
theorem encNeverReadsMemory : Obligations.EncNeverReadsMemory := by
  intro v s t m hs hm h
  rcases exec_next_cases h with ⟨_, hi, -⟩ | ⟨_, hi, hin, rfl⟩ | ⟨_, _, hread, -⟩
  · cases hi
  · cases hi
    refine ⟨_, execEnc_of_inside hin, rfl, fun a ha hlt => ?_, fun a ha => ?_⟩
    · have hlen : a - s.off < (bytesWritten v (remaining s)).length := by
        rw [bytesWritten_length]
        simp only [Transaction.after_off] at hlt
        omega
      exact (getByte_memAfterEnc_inside hm ha hlen).trans (getByte_memAfterEnc_inside hs ha hlen).symm
    · exact getByte_setBytes_outside (by rw [bytesWritten_length]; exact ha)
  · cases hread

/-- Settles O31: each kind of instruction by its response. -/
theorem responseFieldsByCommand : Obligations.ResponseFieldsByCommand := by
  intro i s t h
  rcases exec_next_cases h with ⟨v, rfl, rfl⟩ | ⟨v, rfl, -, rfl⟩ | ⟨b0, payload, hread, -, rfl⟩
  · have hsize : ∀ n, some (encodedSize v) = some n → n = 1 ∨ n = 3 ∨ n = 5 ∨ n = 9 := by
      rintro _ ⟨⟩
      exact encodedSize_cases v
    exact ⟨_, rfl, by simpa [sizeResponse] using hsize⟩
  · refine ⟨_, rfl, ?_⟩
    unfold Transaction.response
    split <;> simp [encoding, okResponse, insufficientBufferResponse]
  · obtain ⟨hs, he⟩ := ne_of_encodingRead hread
    refine ⟨_, rfl, ?_⟩
    unfold Transaction.response
    split <;> simp [hs, he, decoding, resultResponse, insufficientBufferResponse]

/-- Settles O36: `ENC` is the only transaction that writes. -/
theorem onlyEncWritesMemory : Obligations.OnlyEncWritesMemory := by
  intro i s t h
  rcases exec_next_cases h with ⟨v, -, rfl⟩ | ⟨v, rfl, -, rfl⟩ | ⟨b0, payload, -, -, rfl⟩
  · exact ⟨rfl, fun _ => rfl⟩
  · exact ⟨rfl, fun hne => absurd rfl (hne v)⟩
  · exact ⟨rfl, fun _ => rfl⟩

/-! ### The placement of the buffer -/

/-- The buffer moved by `k` offsets, with another content of `MEM`. -/
def moved (k : Nat) (m : Memory) (s : State) : State := { s with mem := m, off := s.off + k, cap := s.cap + k }

theorem remaining_moved (k : Nat) (m : Memory) (s : State) : remaining (moved k m s) = remaining s :=
  Nat.add_sub_add_right ..

/-- The same bytes on two spans. -/
theorem getBytes_placed {a b n : Nat} {m m' : Memory} (h : ∀ j < n, getByte (a + j) m = getByte (b + j) m') :
    getBytes a n m = getBytes b n m' := by
  refine List.ext_getElem (by simp) fun j hj _ => ?_
  rw [getBytes_getElem, getBytes_getElem, h j (by simpa using hj)]

/-- Two transactions that cannot be told apart with `r` bytes left. -/
def SameWithin (r : Nat) (x y : Transaction) : Prop :=
  x.consumed r = y.consumed r ∧ x.response r = y.response r ∧ x.transfers r = y.transfers r

/-- The first byte matters only where a byte is left, the payload only where all of it is. -/
theorem decoding_sameWithin {r : Nat} {b b' : Byte} {p p' : List Byte} (hb : 0 < r → b' = b)
    (hp : wireLen b ≤ r → p' = p) : SameWithin r (decoding b' p') (decoding b p) := by
  rcases Nat.eq_zero_or_pos r with rfl | hr
  · simp [SameWithin, Transaction.consumed, Transaction.response, Transaction.transfers, Transaction.size, decoding]
  obtain rfl := hb hr
  by_cases hfit : wireLen b' ≤ r
  · rw [hp hfit]; exact ⟨rfl, rfl, rfl⟩
  · have hcut : ¬(1 + payloadLen b' ≤ r) := hfit
    simp [SameWithin, Transaction.consumed, Transaction.response, Transaction.transfers, Transaction.size, decoding,
      hcut]

/-- What a moved decoding row reads: the same bytes, as far as they lie below `CAP`. -/
theorem encodingRead_moved {i : Instr} {s : State} {k : Nat} {m : Memory} {b : Byte} {p : List Byte}
    (hm : ∀ a, s.off ≤ a → a < s.cap → getByte (a + k) m = byteAt s a) (h : encodingRead i s = some (b, p)) :
    ∃ b' p', encodingRead i (moved k m s) = some (b', p') ∧ (0 < remaining s → b' = b) ∧
      (wireLen b ≤ remaining s → p' = p) := by
  cases i with
  | sizeof | enc | reservedOp3 => cases h
  | w1_0 | w1_1 | w1_2 | w1_3 | w1_4 | w1_5 | w1_6 | w3 | w5 | w9 => exact ⟨b, p, h, fun _ => rfl, fun _ => rfl⟩
  | dec =>
    cases h
    have hfirst : 0 < remaining s → byteAt (moved k m s) (moved k m s).off = byteAt s s.off := fun hr =>
      hm s.off le_rfl (by simp only [remaining] at hr; omega)
    refine ⟨_, _, rfl, hfirst, fun hfit => ?_⟩
    simp only [wireLen, remaining] at hfit
    rw [hfirst (by simp only [remaining]; omega)]
    refine getBytes_placed fun j hj => ?_
    rw [show (moved k m s).off + 1 + j = s.off + 1 + j + k by simp only [moved]; omega]
    exact hm _ (by omega) (by omega)

/-- Transactions that cannot be told apart leave the same in a buffer and in the moved one, at the moved offset. -/
theorem after_moved {x y : Transaction} {s : State} {k : Nat} {m m₁ m₂ : Memory}
    (h : SameWithin (remaining s) y x) :
    (y.after m₂ (moved k m s)).responses = (x.after m₁ s).responses ∧
      (y.after m₂ (moved k m s)).bus = (x.after m₁ s).bus ∧
      (y.after m₂ (moved k m s)).pending = (x.after m₁ s).pending ∧
      (y.after m₂ (moved k m s)).off = (x.after m₁ s).off + k ∧
      (y.after m₂ (moved k m s)).cap = (x.after m₁ s).cap + k := by
  obtain ⟨hconsumed, hresponse, htransfers⟩ := h
  simp only [Transaction.after_responses, Transaction.after_bus, Transaction.after_pending, Transaction.after_off,
    Transaction.after_cap, remaining_moved, hconsumed, hresponse, htransfers]
  exact ⟨rfl, rfl, rfl, Nat.add_right_comm .., rfl⟩

/-- Settles O35: a transaction depends on the remaining capacity, which the move keeps, and on the bytes it reads. -/
theorem commandsAreBlindToPlacement : Obligations.CommandsAreBlindToPlacement := by
  intro i s t k m h hm
  rcases exec_next_cases h with ⟨v, rfl, rfl⟩ | ⟨v, rfl, hin, rfl⟩ | ⟨b, p, hread, hin, rfl⟩
  · exact ⟨_, exec_sizeof v _, rfl, rfl, rfl, rfl, rfl⟩
  · exact ⟨_, execEnc_of_inside (s := moved k m s) (Nat.add_le_add_right hin k), after_moved ⟨rfl, rfl, rfl⟩⟩
  · obtain ⟨b', p', hread', hb, hp⟩ := encodingRead_moved hm hread
    have hrun := (exec_of_encodingRead hread').trans (takeEncoding_of_inside (Nat.add_le_add_right hin k))
    exact ⟨_, hrun, after_moved (decoding_sameWithin hb hp)⟩

/-! ### The statements about a step -/

/-- Settles O40: the command's response takes it off the port, and a host move leaves the ports alone. -/
theorem oneInputAStep : Obligations.OneInputAStep := by
  intro s t h
  rcases step_next_cases h with ⟨c, rest, hp, h⟩ | ⟨move, rest, hp, h⟩
  · obtain ⟨hpending, hresponse⟩ := exec_takes_command h
    exact ⟨.command c, by rw [hpending, hp]; rfl, hresponse⟩
  · obtain ⟨hpending, hframe⟩ := hostMove_frame h
    exact ⟨.host move, by rw [hpending, hp]; rfl, hframe⟩

/-- Settles O33: `fetch` looks at `OFF` first, and so does the first reservation of every transaction. -/
theorem offsetPastCapacityRefused : Obligations.OffsetPastCapacityRefused :=
  fun _ h => ⟨step_of_past h, fun _ hr hs => exec_of_past h hr hs⟩

/-- Settles O37: the word on the port is decoded, and its response takes it off. -/
theorem stepRunsTheDecodedInstruction : Obligations.StepRunsTheDecodedInstruction := by
  intro s c rest i hs hp hdecode
  cases hdecode
  refine ⟨step_of_command hs hp, fun t h => ?_⟩
  rw [(exec_takes_command h).1, hp]
  rfl

end Sys2Proof.Proofs
end

section
/-! PROOFS. The family 20_memory.md. First the buffer primitives: what each of them answers on a span that fits; then
what the transfers of one transaction carry, and the statements about `ENC` and `DEC`; then the step on each host
move. -/

namespace Sys2Proof.Proofs

open Sys2Proof.Machine

/-! ### The buffer primitives -/

/-- A grant is the span at `OFF`, with `OFF` moved to its end. -/
theorem reserve_granted {n base : Nat} {s t : State} (h : reserve n s = .granted base t) :
    base = s.off ∧ t = { s with off := s.off + n } := by
  unfold reserve at h
  split_ifs at h
  cases h
  exact ⟨rfl, rfl⟩

/-- Settles O12: each clause is one outcome of `reserve`; a grant leaves `OFF` at the end of its span, where the next
span begins. -/
theorem reserveIsExactAndSequential : Obligations.ReserveIsExactAndSequential := by
  intro n s hs
  refine ⟨fun hn => reserve_of_fits (by omega), fun hn => reserve_of_short hs (by omega), reserve_of_fits hs, ?_⟩
  intro m base base' s' s'' hfirst hsecond
  obtain ⟨rfl, rfl⟩ := reserve_granted hfirst
  obtain ⟨rfl, rfl⟩ := reserve_granted hsecond
  exact ⟨rfl, rfl⟩

theorem memRead_of_fits {addr n : Nat} {s : State} (h : addr + n ≤ s.cap) :
    memRead addr n s = .ok (leValue (getBytes addr n s.mem)) := by
  simp only [memRead, readSpan, if_pos h]
  rfl

theorem memWrite_of_fits {addr n : Nat} {v : Word} {s : State} (h : addr + n ≤ s.cap) :
    memWrite addr n v s = .ok { s with mem := setBytes addr (leBytes v n) s.mem } := if_pos h

/-- The number held little-endian in a span is the sum of 20_memory.md R34. -/
theorem leValue_getBytes (addr n : Nat) (m : Memory) :
    leValue (getBytes addr n m) =
      ((List.range n).map fun i => (getByte (addr + i) m).toNat * 2 ^ (8 * i)).sum := by
  induction n generalizing addr with
  | zero => rfl
  | succ n ih =>
    have hterm (i : Nat) : (getByte (addr + (i + 1)) m).toNat * 2 ^ (8 * (i + 1)) =
        2 ^ 8 * ((getByte (addr + 1 + i) m).toNat * 2 ^ (8 * i)) := by
      rw [show addr + (i + 1) = addr + 1 + i by omega]
      ring
    simp [getBytes, leValue, ih, List.range_succ_eq_map, Function.comp_def, hterm, List.sum_map_mul_left]

/-- Settles O13: the span is below `CAP`, so `MemRead` answers, and what it answers is the number in `n` bytes. -/
theorem memReadIsLittleEndianSum : Obligations.MemReadIsLittleEndianSum := by
  intro addr n s _ hfit
  refine ⟨_, memRead_of_fits hfit, ?_, leValue_getBytes addr n s.mem⟩
  simpa only [getBytes_length] using leValue_lt (bs := getBytes addr n s.mem)

/-- Settles O14: the rules of a written span, for the bytes of `v`. -/
theorem memWriteIsLittleEndianAndReadBack : Obligations.MemWriteIsLittleEndianAndReadBack := by
  intro addr n v s _ hfit hwf
  have hbytes : getBytes addr n (setBytes addr (leBytes v n) s.mem) = leBytes v n := by
    simpa only [leBytes_length] using getBytes_setBytes (a := addr) (bs := leBytes v n) hwf
  have hback : leValue (getBytes addr n (setBytes addr (leBytes v n) s.mem)) = v.toNat % 2 ^ (8 * n) := by
    rw [hbytes, leValue_leBytes]
  refine ⟨_, memWrite_of_fits hfit, rfl, fun i hi => ?_, fun a ha => ?_, ?_⟩
  · exact (getByte_setBytes_inside hwf (by simpa using hi)).trans (leBytes_getElem _)
  · exact getByte_setBytes_outside (by simpa using ha)
  · exact hback ▸ memRead_of_fits hfit

/-! ### What the transfers of a transaction carry -/

theorem Transaction.transfers_write (x : Transaction) (r : Nat) : ∀ y ∈ x.transfers r, y.write = x.write := by
  unfold Transaction.transfers
  split_ifs <;> simp

/-- The sizes asked for (20_memory.md R31). -/
theorem Transaction.Legal.transfers_sizes {x : Transaction} (h : x.Legal) (r : Nat) :
    (x.transfers r).map (fun y => y.n.toNat) = if r = 0 ∨ x.payloadSize = 0 then [1] else [1, x.payloadSize] := by
  have hn : (BitVec.ofNat 4 x.payloadSize).toNat = x.payloadSize := by
    rcases h.payloadSize with hz | hz | hz | hz <;> rw [hz] <;> rfl
  unfold Transaction.transfers
  split_ifs <;> simp_all

theorem Transaction.transfers_eq_transfersOf {x : Transaction} (h : x.payload.length = x.payloadSize) (r : Nat) :
    x.transfers r = transfersOf x.write r x.first x.payload := by
  simp only [Transaction.transfers, transfersOf, Transaction.size, ← h, List.length_eq_zero_iff]

/-- The lanes of a transaction, joined, are the bytes of the varint that `OFF` moves over. -/
theorem Transaction.transfers_lanes {x : Transaction} (h : x.payload.length = x.payloadSize) (r : Nat) :
    (x.transfers r).flatMap (·.lanes) = (x.first :: x.payload).take (x.consumed r) := by
  unfold Transaction.transfers Transaction.consumed
  simp only [Transaction.size, ← h]
  by_cases hr : r = 0
  · simp [hr]
  have hone : min r 1 = 1 := by omega
  by_cases hp : x.payload.length = 0
  · simp [hr, hone, List.length_eq_zero_iff.mp hp]
  by_cases hfit : 1 + x.payload.length ≤ r
  · have hall : (x.first :: x.payload).take (1 + x.payload.length) = x.first :: x.payload :=
      List.take_of_length_le (Nat.add_comm ..).le
    simp [hr, hp, hfit, hall]
  · simp [hr, hp, hfit, hone]

/-! ### `ENC` and `DEC` on the buffer interface -/

/-- The transaction of `DEC`: it reads the encoding that stands at `OFF`. -/
def decodingAt (s : State) : Transaction :=
  decoding (byteAt s s.off) (getBytes (s.off + 1) (payloadLen (byteAt s s.off)) s.mem)

theorem decodingAt_legal (s : State) : (decodingAt s).Legal := decoding_legal getBytes_length

theorem execDec_of_inside {s : State} (h : s.off ≤ s.cap) :
    exec .dec s = .next ((decodingAt s).after s.mem s) :=
  (execDec_eq_takeEncoding s).trans (takeEncoding_of_inside h)

theorem execDec_next {s t : State} (h : exec .dec s = .next t) :
    s.off ≤ s.cap ∧ t = (decodingAt s).after s.mem s := by
  rcases exec_next_cases h with ⟨_, hi, -⟩ | ⟨_, hi, -⟩ | ⟨_, _, hread, hin, ht⟩
  · cases hi
  · cases hi
  · cases hread
    exact ⟨hin, ht⟩

theorem execEnc_next {v : Word} {s t : State} (h : exec (.enc v) s = .next t) :
    s.off ≤ s.cap ∧ t = (encoding v).after (memAfterEnc v s.mem s) s := by
  rcases exec_next_cases h with ⟨_, hi, -⟩ | ⟨_, hi, hin, ht⟩ | ⟨_, _, hread, -⟩
  · cases hi
  · cases hi
    exact ⟨hin, ht⟩
  · cases hread

theorem getBytes_take {a k n : Nat} {m : Memory} (h : k ≤ n) : (getBytes a n m).take k = getBytes a k m := by
  refine List.ext_getElem (by simpa using h) fun i _ _ => ?_
  rw [List.getElem_take, getBytes_getElem, getBytes_getElem]

/-- `DEC` takes its lanes from `MEM` at `OFF`, as far as `OFF` moves. -/
theorem decodingAt_lanes (s : State) (r : Nat) :
    ((decodingAt s).transfers r).flatMap (·.lanes) = getBytes s.off ((decodingAt s).consumed r) s.mem := by
  have hle : (decodingAt s).consumed r ≤ payloadLen (byteAt s s.off) + 1 :=
    ((decodingAt s).consumed_le_size r).trans_eq (Nat.add_comm ..)
  rw [Transaction.transfers_lanes (decodingAt_legal s).payload_length, ← getBytes_take hle]
  rfl

/-- `ENC` sends the bytes it writes, which then stand in `MEM` at `OFF`, as far as `OFF` moves. -/
theorem encoding_lanes {v : Word} {s : State} (hm : s.mem.wf) :
    ((encoding v).transfers (remaining s)).flatMap (·.lanes) =
      getBytes s.off ((encoding v).consumed (remaining s)) (memAfterEnc v s.mem s) := by
  have hsent : ((encoding v).transfers (remaining s)).flatMap (·.lanes) = bytesWritten v (remaining s) :=
    Transaction.transfers_lanes (encoding_legal v).payload_length _
  rw [hsent, ← bytesWritten_length, memAfterEnc, getBytes_setBytes hm]

/-- A `MEM` that agrees on the bytes `DEC` consumes gives a transaction that cannot be told apart: the first byte is
consumed where one is left, the payload where all of it is. -/
theorem decodingAt_sameWithin {s : State} {m : Memory}
    (h : ∀ a, s.off ≤ a → a < s.off + (decodingAt s).consumed (remaining s) → getByte a m = byteAt s a) :
    SameWithin (remaining s) (decodingAt { s with mem := m }) (decodingAt s) := by
  have hfirst : 0 < remaining s → getByte s.off m = byteAt s s.off := fun hr => by
    refine h s.off le_rfl ?_
    unfold Transaction.consumed Transaction.size
    split <;> omega
  refine decoding_sameWithin hfirst fun hfit => ?_
  have hconsumed : (decodingAt s).consumed (remaining s) = wireLen (byteAt s s.off) := if_pos hfit
  rw [hconsumed, wireLen] at h
  have hlen : byteAt { s with mem := m } s.off = byteAt s s.off := hfirst (by unfold wireLen at hfit; omega)
  rw [hlen]
  exact getBytes_congr fun a (ha : s.off + 1 ≤ a) (hlt : a < s.off + 1 + _) => h a (by omega) (by omega)

/-- Transactions that cannot be told apart leave the same state. -/
theorem after_congr {x y : Transaction} {s : State} (m m' : Memory) (h : SameWithin (remaining s) y x) :
    y.after m { s with mem := m' } = x.after m s := by
  obtain ⟨hconsumed, hresponse, htransfers⟩ := h
  have hr : remaining { s with mem := m' } = remaining s := rfl
  simp only [Transaction.after, hr, hconsumed, hresponse, htransfers]

/-- Settles O22: the lanes of `DEC` are the bytes it consumes, and its transaction depends on no other byte. -/
theorem decReadsOnlyTheBytesItConsumes : Obligations.DecReadsOnlyTheBytesItConsumes := by
  intro s t h
  obtain ⟨hin, rfl⟩ := execDec_next h
  refine ⟨rfl, ⟨_, rfl, fun x hx => ⟨Transaction.transfers_write _ _ x hx, fun hok => ?_⟩, ?_⟩, fun m hm => ?_⟩
  · obtain ⟨-, hlanes⟩ := (decodingAt_legal s).transfers _ x hx
    simpa [hok] using hlanes
  · rw [Transaction.after_off, Nat.add_sub_cancel_left, decodingAt_lanes]
  · have hrun : exec .dec { s with mem := m } = .next ((decodingAt { s with mem := m }).after m { s with mem := m }) :=
      execDec_of_inside hin
    rw [hrun, after_congr m m (decodingAt_sameWithin hm)]
    rfl

/-- With `OFF` inside the capacity, no byte is left exactly at `OFF = CAP`. -/
theorem remaining_eq_zero_iff {s : State} (h : s.off ≤ s.cap) : remaining s = 0 ↔ s.off = s.cap := by
  unfold remaining
  omega

/-- Settles O34: the transfers are those of one transaction, and the lanes of `ENC` are the bytes it writes. -/
theorem oneOrTwoReservationsACommand : Obligations.OneOrTwoReservationsACommand := by
  constructor
  · intro v s t h
    obtain ⟨hin, rfl⟩ := execEnc_next h
    have hlegal := encoding_legal v
    refine ⟨_, rfl, Transaction.transfers_eq_transfersOf hlegal.payload_length _, Transaction.transfers_write _ _, ?_,
      fun hm => ?_⟩
    · rw [hlegal.transfers_sizes]
      simp only [remaining_eq_zero_iff hin, encoding]
    · rw [Transaction.after_off, Nat.add_sub_cancel_left, Transaction.after_mem, encoding_lanes hm]
  · intro s t h
    obtain ⟨hin, rfl⟩ := execDec_next h
    have hlegal := decodingAt_legal s
    refine ⟨_, rfl, Transaction.transfers_eq_transfersOf hlegal.payload_length _, Transaction.transfers_write _ _, ?_⟩
    rw [hlegal.transfers_sizes]
    simp only [remaining_eq_zero_iff hin, decodingAt, decoding]

/-! ### The step on each host move -/

section

variable {s : State} {rest : List Input} {bytes : List Byte} {a : Nat}

theorem step_seek (h : s.off ≤ s.cap) (hp : s.pending = .host (.seek a) :: rest) :
    step s = if a ≤ s.cap then .next { s with pending := rest, off := a } else .refused .hostMoveOutsideContract := by
  rw [step_of_host h hp, hostMove, hp]; rfl

theorem step_fill (h : s.off ≤ s.cap) (hp : s.pending = .host (.fill a bytes) :: rest) :
    step s = if a + bytes.length ≤ s.cap then .next { s with pending := rest, mem := setBytes a bytes s.mem }
      else .refused .hostMoveOutsideContract := by
  rw [step_of_host h hp, hostMove, hp]; rfl

theorem step_grow (h : s.off ≤ s.cap) (hp : s.pending = .host (.grow bytes) :: rest) :
    step s =
      .next { s with pending := rest, mem := setBytes s.cap bytes s.mem, cap := s.cap + bytes.length } := by
  rw [step_of_host h hp, hostMove, hp]; rfl

theorem step_shrink (h : s.off ≤ s.cap) (hp : s.pending = .host (.shrink a) :: rest) :
    step s = if s.off ≤ a ∧ a ≤ s.cap then .next { s with pending := rest, mem := keepBelow a s.mem, cap := a }
      else .refused .hostMoveOutsideContract := by
  rw [step_of_host h hp, hostMove, hp]; rfl

theorem step_swap (h : s.off ≤ s.cap) (hp : s.pending = .host (.swap bytes) :: rest) :
    step s = if bytes.length = s.cap then .next { s with pending := rest, mem := setBytes 0 bytes [] }
      else .refused .hostMoveOutsideContract := by
  rw [step_of_host h hp, hostMove, hp]; rfl

theorem step_peek (h : s.off ≤ s.cap) (hp : s.pending = .host (.peek a) :: rest) :
    step s = if a < s.cap then .next { s with pending := rest } else .refused .hostMoveOutsideContract := by
  rw [step_of_host h hp, hostMove, hp]; rfl

end

/-- Settles O39: each move by its step, and what it leaves in `MEM` by the rules of a written span. -/
theorem hostMovesKeepTheContract : Obligations.HostMovesKeepTheContract := by
  intro s rest hs hm
  refine ⟨fun o hp => step_seek hs hp, ?fill, ?fillPast, ?grow, ?shrink, ?shrinkOutside, ?swap, ?swapOther,
    fun a hp => step_peek hs hp⟩
  case fill =>
    intro a bytes hp hfit
    exact ⟨_, (step_fill hs hp).trans (if_pos hfit), getBytes_setBytes hm, fun _ => getByte_setBytes_outside⟩
  case fillPast =>
    intro a bytes hp hpast
    exact (step_fill hs hp).trans (if_neg (Nat.not_le.mpr hpast))
  case grow =>
    intro bytes hp
    exact ⟨_, step_grow hs hp, getBytes_setBytes hm, fun _ hx => getByte_setBytes_outside (.inl hx)⟩
  case shrink =>
    intro c hp hoff hcap
    exact ⟨_, (step_shrink hs hp).trans (if_pos ⟨hoff, hcap⟩), fun _ => getByte_keepBelow⟩
  case shrinkOutside =>
    intro c hp hout
    exact (step_shrink hs hp).trans (if_neg (by omega))
  case swap =>
    intro bytes hp hlen
    exact ⟨_, (step_swap hs hp).trans (if_pos hlen), hlen ▸ getBytes_setBytes Memory.wf_nil⟩
  case swapOther =>
    intro bytes hp hlen
    exact (step_swap hs hp).trans (if_neg hlen)

end Sys2Proof.Proofs
end

section
/-! PROOFS. The family 30_encoding.md. First the command word by its fields; then the wire formats: the decoder and the
encoder are each said once, as the first byte and the payload of a format, and the statements about encoding and
decoding compare the two; then the rows run as instructions; then the textual form. -/

namespace Sys2Proof.Proofs

open Sys2Proof.Machine

/-! ### The command word -/

@[simp] theorem commandOp_commandWord (op : BitVec 2) (value : Word) : commandOp (commandWord op value) = op :=
  BitVec.extractLsb'_append_eq_left

@[simp] theorem commandValue_commandWord (op : BitVec 2) (value : Word) : commandValue (commandWord op value) = value :=
  BitVec.extractLsb'_append_eq_right

theorem commandWord_toNat (op : BitVec 2) (value : Word) :
    (commandWord op value).toNat = op.toNat * 2 ^ 64 + value.toNat := by
  rw [commandWord, BitVec.toNat_append, ← Nat.shiftLeft_add_eq_or_of_lt value.isLt, Nat.shiftLeft_eq]

/-- The decoder on a command word by its two fields. -/
theorem decodeCommand_commandWord (op : BitVec 2) (value : Word) :
    decodeCommand (commandWord op value) =
      if op = 0b00#2 then .sizeof value else if op = 0b01#2 then .enc value else if op = 0b10#2 then .dec
      else .reservedOp3 := by
  simp only [decodeCommand, commandOp_commandWord, commandValue_commandWord]

/-- Settles O6: the fields read back, and the decoder looks at nothing else. -/
theorem commandWordFields : Obligations.CommandWordFields := by
  refine ⟨rfl, rfl, fun value => ?_⟩
  simp only [decodeCommand_commandWord]
  exact ⟨rfl, rfl, rfl, rfl, fun op =>
    ⟨commandOp_commandWord op value, commandValue_commandWord op value, commandWord_toNat op value⟩⟩

/-- A step with a command word presented runs the row it decodes to. -/
theorem step_presented {s : State} {c : CommandWord} {i : Instr} {rest : List Input} (hs : s.off ≤ s.cap)
    (hc : decodeCommand c = i) :
    step { s with pending := .command c :: rest } = exec i { s with pending := .command c :: rest } :=
  hc ▸ step_of_command (s := { s with pending := .command c :: rest }) hs rfl

/-- With `DEC` on the port the next state has nothing of the word (30_encoding.md R63). -/
theorem step_dec_presented {s : State} {rest : List Input} (value : Word) (hs : s.off ≤ s.cap) :
    step { s with pending := .command (commandWord 0b10#2 value) :: rest } =
      .next ((decodingAt s).after s.mem { s with pending := decInput :: rest }) := by
  rw [step_presented hs (decodeCommand_commandWord 0b10#2 value)]
  exact execDec_of_inside hs

/-- Settles O32: the reserved code has the refusing row, and what `DEC` does leaves out the word on the port. -/
theorem reservedCodeRefusedAndDecFieldIgnored : Obligations.ReservedCodeRefusedAndDecFieldIgnored := by
  refine ⟨fun _ => rfl, fun value rest s hs => ⟨?_, ?_⟩⟩
  · rw [step_presented hs (decodeCommand_commandWord 0b11#2 value)]
    rfl
  · exact (step_dec_presented value hs).trans (step_dec_presented 0#64 hs).symm

/-! ### The bytes of a payload -/

/-- A value that fits a payload is read back from it: truncation has dropped zero bits only (30_encoding.md R58). -/
theorem payloadValue_leBytes {v : Word} {n : Nat} (h : v.toNat < 2 ^ (8 * n)) : payloadValue (leBytes v n) = v := by
  rw [payloadValue, leValue_leBytes, Nat.mod_eq_of_lt h, BitVec.ofNat_toNat, BitVec.setWidth_eq]

/-- A payload operand of `n` bytes, widened and serialized, is deserialized to itself. -/
theorem ofNat_leValue_leBytes {w n : Nat} (p : BitVec w) (hw : w = 8 * n) (hn : n ≤ 8) :
    BitVec.ofNat w (leValue (leBytes (p.setWidth 64) n)) = p := by
  have hp : p.toNat < 2 ^ (8 * n) := hw ▸ p.isLt
  have h64 : p.toNat < 2 ^ 64 := hp.trans_le (Nat.pow_le_pow_right (by omega) (by omega))
  rw [leValue_leBytes, BitVec.toNat_setWidth, Nat.mod_eq_of_lt h64, Nat.mod_eq_of_lt hp, BitVec.ofNat_toNat,
    BitVec.setWidth_eq]

/-- The bytes of a payload operand are those it was deserialized from. -/
theorem leBytes_ofNat_leValue {w n : Nat} {bs : List Byte} (hw : w = 8 * n) (hn : n ≤ 8) (h : bs.length = n) :
    leBytes ((BitVec.ofNat w (leValue bs)).setWidth 64) n = bs := by
  have hlt : leValue bs < 2 ^ w := by rw [hw, ← h]; exact leValue_lt
  have hwiden : (BitVec.ofNat w (leValue bs)).setWidth 64 = BitVec.ofNat 64 (leValue bs) := by
    apply BitVec.eq_of_toNat_eq
    rw [BitVec.toNat_setWidth, BitVec.toNat_ofNat, BitVec.toNat_ofNat, Nat.mod_eq_of_lt hlt]
  rw [hwiden, ← h, leBytes_leValue (h ▸ hn)]

theorem decodedValue_of_payload {p : Byte} {payload : List Byte} (h : payloadLen p ≠ 0) :
    decodedValue p payload = payloadValue payload := if_neg h

/-- A T1 value is its first byte, which is no sentinel. -/
theorem single_byte_of_lt {v : Word} (h : v.toNat < 253) :
    (v.setWidth 8).setWidth 64 = v ∧ payloadLen (v.setWidth 8) = 0 := by
  have hbyte : (v.setWidth 8).toNat = v.toNat := by rw [BitVec.toNat_setWidth]; omega
  constructor
  · apply BitVec.eq_of_toNat_eq
    rw [BitVec.toNat_setWidth, hbyte, Nat.mod_eq_of_lt v.isLt]
  · rcases payloadLen_cases (v.setWidth 8) with ⟨hp, -⟩ | ⟨hp, -⟩ | ⟨hp, -⟩ | ⟨-, -, -, hz⟩
    case inr.inr.inr => exact hz
    all_goals
      rw [hp, BitVec.toNat_ofNat] at hbyte
      omega

/-- The bytes of a tier hold every value of the tier, where T1 has its one byte. -/
theorem toNat_lt_tier_bytes (v : Word) : v.toNat < 2 ^ (8 * max 1 (payloadBytes (tier v))) := by
  have hv := v.isLt
  rcases tier_cases v with ⟨ht, h⟩ | ⟨ht, -, h⟩ | ⟨ht, -, h⟩ | ⟨ht, -⟩ <;> rw [ht] <;> simp [payloadBytes] <;> omega

/-- Settles O10: each tier's range fits its bytes, and its first byte tells whether they are read. -/
theorem decodedPayloadIsTheValue : Obligations.DecodedPayloadIsTheValue := by
  intro v
  have hlt := toNat_lt_tier_bytes v
  refine ⟨Nat.mod_eq_of_lt hlt, ?_⟩
  rcases tier_cases v with ⟨ht, hv⟩ | ⟨ht, -⟩ | ⟨ht, -⟩ | ⟨ht, -⟩ <;> simp only [prefixByte, ht] at hlt ⊢
  · obtain ⟨hvalue, hsingle⟩ := single_byte_of_lt hv
    rw [decodedValue_of_single hsingle, hvalue]
  all_goals
    rw [decodedValue_of_payload (by decide)]
    exact payloadValue_leBytes hlt

/-! ### The rows of the first byte -/

/-- The match and mask rows of 30_encoding.md R54 are apart: a byte in the row of a W1 term is no sentinel, and the
decoder reads that row. -/
theorem w1_row_of_wellFormed : ∀ b0 : Byte,
    ∀ i ∈ [Instr.w1_0 b0, .w1_1 b0, .w1_2 b0, .w1_3 b0, .w1_4 b0, .w1_5 b0, .w1_6 b0],
      i.WellFormed → payloadLen b0 = 0 ∧ decodeW1 b0 = i := by decide

/-- The seven W1 rows cover every byte that is no sentinel. -/
theorem decodeW1_wellFormed : ∀ b0 : Byte, payloadLen b0 = 0 → (decodeW1 b0).WellFormed := by decide

theorem encode_decodeW1 (b0 : Byte) : encode (decodeW1 b0) = .wire [b0] := by
  unfold decodeW1
  split_ifs <;> rfl

/-- Settles O1: each word is one evaluation of the decoder. -/
theorem tableWordsDecodeToTheirRows : Obligations.TableWordsDecodeToTheirRows := by
  refine ⟨?_, ?_, ?_, ?_, ?_, ?_, ?_, ?_, ?_⟩ <;> decide

/-- Settles O5: the two clauses, each checked on the 256 bytes. -/
theorem prefixMapCoversEachByteOnce : Obligations.PrefixMapCoversEachByteOnce := by
  refine fun b0 => ⟨?_, ?_⟩ <;> revert b0 <;> decide

/-- Settles O11: the tier of a value decides its format, and a T1 byte is no sentinel. -/
theorem canonicalFormatRanges : Obligations.CanonicalFormatRanges := by
  intro v
  rcases tier_cases v with ⟨ht, hv⟩ | ⟨ht, hv⟩ | ⟨ht, hv⟩ | ⟨ht, hv⟩ <;> simp only [canonicalFormat, ht]
  · exact ⟨fun _ => encode_decodeW1 _, by omega, by omega, by omega, decodeW1_wellFormed _ (single_byte_of_lt hv).2⟩
  · exact ⟨by omega, fun _ _ => trivial, by omega, by omega, rfl⟩
  · exact ⟨by omega, by omega, fun _ _ => trivial, by omega, rfl⟩
  · exact ⟨by omega, by omega, by omega, fun _ => trivial, rfl⟩

/-! ### The wire formats: encoder and decoder -/

theorem decodeFormat_of_single {b0 : Byte} {payload : List Byte} (h : payloadLen b0 = 0) :
    decodeFormat b0 payload = decodeW1 b0 := by
  rcases payloadLen_cases b0 with ⟨-, hl⟩ | ⟨-, hl⟩ | ⟨-, hl⟩ | ⟨h₁, h₂, h₃, -⟩
  case inr.inr.inr => simp only [decodeFormat, if_neg h₁, if_neg h₂, if_neg h₃]
  all_goals omega

/-- What the decoder reads from a first byte and as many payload bytes as it calls for is well-formed, and its encoding
is those bytes (30_encoding.md R52, R57). -/
theorem encode_decodeFormat {b0 : Byte} {payload : List Byte} (h : payload.length = payloadLen b0) :
    encode (decodeFormat b0 payload) = .wire (b0 :: payload) ∧ (decodeFormat b0 payload).WellFormed := by
  rcases payloadLen_cases b0 with ⟨rfl, hl⟩ | ⟨rfl, hl⟩ | ⟨rfl, hl⟩ | ⟨-, -, -, hl⟩ <;> rw [hl] at h
  · exact ⟨congrArg (fun bs => Encoding.wire (0xFD#8 :: bs)) (leBytes_ofNat_leValue rfl (by decide) h), rfl⟩
  · exact ⟨congrArg (fun bs => Encoding.wire (0xFE#8 :: bs)) (leBytes_ofNat_leValue rfl (by decide) h), rfl⟩
  · have hbytes := leBytes_ofNat_leValue (w := 64) rfl le_rfl h
    rw [BitVec.setWidth_eq] at hbytes
    exact ⟨congrArg (fun bs => Encoding.wire (0xFF#8 :: bs)) hbytes, rfl⟩
  · rw [decodeFormat_of_single hl, List.length_eq_zero_iff.mp h]
    exact ⟨encode_decodeW1 b0, decodeW1_wellFormed b0 hl⟩

/-- The encoding of a well-formed wire-format row is a first byte and the payload bytes it calls for, and the decoder
reads the row from them (30_encoding.md R52, R54, R55). -/
theorem format_of_encode {i : Instr} {bytes : List Byte} (hwf : i.WellFormed) (h : encode i = .wire bytes) :
    ∃ b0 payload, bytes = b0 :: payload ∧ payload.length = payloadLen b0 ∧ i = decodeFormat b0 payload := by
  cases i with
  | sizeof | enc | dec | reservedOp3 => cases h
  | w1_0 b0 | w1_1 b0 | w1_2 b0 | w1_3 b0 | w1_4 b0 | w1_5 b0 | w1_6 b0 =>
    obtain ⟨hz, hrow⟩ := w1_row_of_wellFormed b0 _ (by simp) hwf
    cases h
    exact ⟨b0, [], rfl, hz.symm, ((decodeFormat_of_single hz).trans hrow).symm⟩
  | w3 p =>
    cases h
    exact ⟨_, _, rfl, leBytes_length, congrArg Instr.w3 (ofNat_leValue_leBytes p rfl (by decide)).symm⟩
  | w5 p =>
    cases h
    exact ⟨_, _, rfl, leBytes_length, congrArg Instr.w5 (ofNat_leValue_leBytes p rfl (by decide)).symm⟩
  | w9 p =>
    cases h
    have hvalue := ofNat_leValue_leBytes p rfl le_rfl
    rw [BitVec.setWidth_eq] at hvalue
    exact ⟨_, _, rfl, leBytes_length, congrArg Instr.w9 hvalue.symm⟩

/-- The decoder on a first byte, the payload bytes it calls for, and any bytes after them (30_encoding.md R56). -/
theorem decodeWire_append {b0 : Byte} {payload rest : List Byte} (h : payload.length = payloadLen b0) :
    decodeWire (b0 :: payload ++ rest) = .ok (decodeFormat b0 payload, rest) := by
  simp [decodeWire, ← h]

/-- What the decoder reads at the head of a sequence is a first byte and the payload bytes it calls for. -/
theorem decodeWire_ok {bytes rest : List Byte} {i : Instr} (h : decodeWire bytes = .ok (i, rest)) :
    ∃ b0 payload, bytes = b0 :: payload ++ rest ∧ payload.length = payloadLen b0 ∧ i = decodeFormat b0 payload := by
  cases bytes with
  | nil => cases h
  | cons b0 tail =>
    by_cases hlen : tail.length < payloadLen b0
    · simp only [decodeWire, if_pos hlen] at h
      cases h
    · simp only [decodeWire, if_neg hlen] at h
      cases h
      exact ⟨b0, tail.take (payloadLen b0), by simp, List.length_take_of_le (Nat.not_lt.mp hlen), rfl⟩

/-- What the decoder accepts: exactly a first byte and the payload bytes it calls for. -/
theorem decode_wire_eq_ok_iff {bytes : List Byte} {i : Instr} :
    decode (.wire bytes) = .ok i ↔
      ∃ b0 payload, bytes = b0 :: payload ∧ payload.length = payloadLen b0 ∧ i = decodeFormat b0 payload := by
  constructor
  · intro h
    simp only [decode] at h
    split at h
    · next hwire =>
      cases h
      simpa only [List.append_nil] using decodeWire_ok hwire
    all_goals cases h
  · rintro ⟨b0, payload, rfl, hlen, rfl⟩
    have hwire := decodeWire_append (rest := []) hlen
    rw [List.append_nil] at hwire
    simp only [decode, hwire]

/-- Settles O2: the decoder undoes the command word by its fields, and a wire format by its first byte and payload. -/
theorem decodeAfterEncodeIsIdentity : Obligations.DecodeAfterEncodeIsIdentity := by
  intro i hwf
  cases i with
  | sizeof v => exact congrArg Except.ok (decodeCommand_commandWord 0b00#2 v)
  | enc v => exact congrArg Except.ok (decodeCommand_commandWord 0b01#2 v)
  | dec => exact congrArg Except.ok (decodeCommand_commandWord 0b10#2 0#64)
  | reservedOp3 => cases hwf
  | w1_0 | w1_1 | w1_2 | w1_3 | w1_4 | w1_5 | w1_6 | w3 | w5 | w9 =>
    exact decode_wire_eq_ok_iff.mpr (format_of_encode hwf rfl)

/-- Settles O3: bytes that decode are a first byte and its payload, which the encoder writes again. -/
theorem wireBytesHaveOneMeaning : Obligations.WireBytesHaveOneMeaning := by
  intro bytes i h
  obtain ⟨b0, payload, rfl, hlen, rfl⟩ := decode_wire_eq_ok_iff.mp h
  exact encode_decodeFormat hlen

/-- Settles O4: the first byte calls for the payload of the encoding and no more. -/
theorem wireFormatIsSelfDelimiting : Obligations.WireFormatIsSelfDelimiting := by
  intro i bytes rest hwf h
  obtain ⟨b0, payload, rfl, hlen, rfl⟩ := format_of_encode hwf h
  refine ⟨decodeWire_append hlen, ?_⟩
  rintro _ ⟨⟩
  rw [List.length_cons, hlen, wireLen, Nat.add_comm]

/-! ### The wire formats run as instructions -/

/-- A row run as an instruction reads its own encoding (notes/assumptions/8.md). -/
theorem encodingRead_of_encode {i : Instr} {b0 : Byte} {payload : List Byte} (s : State)
    (h : encode i = .wire (b0 :: payload)) : encodingRead i s = some (b0, payload) := by
  cases i <;> cases h <;> rfl

/-- Settles O26: `DEC` and the row both take the encoding that stands at `OFF`. -/
theorem decIsTheFormatAtTheOffset : Obligations.DecIsTheFormatAtTheOffset := by
  intro s
  obtain ⟨hencode, hwf⟩ := encode_decodeFormat (b0 := byteAt s s.off)
    (payload := getBytes (s.off + 1) (payloadLen (byteAt s s.off)) s.mem) getBytes_length
  have hrow := exec_of_encodingRead (encodingRead_of_encode s hencode)
  exact ⟨(execDec_eq_takeEncoding s).trans hrow.symm, hwf⟩

/-- Bytes at `OFF` that decode are the encoding at `OFF`. -/
theorem eq_encodingAtOff_of_decode {s : State} {i : Instr} {n : Nat}
    (h : decode (.wire (getBytes s.off n s.mem)) = .ok i) : i = encodingAtOff s := by
  obtain ⟨b0, payload, hbytes, hlen, rfl⟩ := decode_wire_eq_ok_iff.mp h
  cases n with
  | zero => cases hbytes
  | succ n =>
    obtain ⟨rfl, rfl⟩ := List.cons.inj hbytes
    rw [getBytes_length] at hlen
    rw [hlen]
    rfl

/-- Settles O38: the step runs `DEC`, which is the row of the bytes at `OFF`. -/
theorem stepRunsTheWireFormatAtTheOffset : Obligations.StepRunsTheWireFormatAtTheOffset := by
  intro s rest i bytes hfit hp hbytes hdecode
  obtain rfl := eq_encodingAtOff_of_decode (hbytes.symm ▸ hdecode)
  obtain ⟨hdec, hwf⟩ := decIsTheFormatAtTheOffset s
  have hstep : step s = exec .dec s :=
    (step_of_command (by omega) hp).trans (congrArg (exec · s) (decodeCommand_commandWord 0b10#2 0#64))
  exact ⟨hwf, hstep.trans hdec⟩

/-- Settles O23: a W1 row is the transaction of its one byte. -/
theorem w1FormatsReturnTheirByte : Obligations.W1FormatsReturnTheirByte := by
  intro i b0 s hi hwf hlt
  obtain ⟨hz, hrow⟩ := w1_row_of_wellFormed b0 i (by simpa using hi) hwf
  have hread := encodingRead_of_encode s (hrow ▸ encode_decodeW1 b0)
  rw [exec_of_encodingRead hread, takeEncoding_of_inside hlt.le,
    Transaction.after_of_single (x := decoding b0 []) s.mem hlt hz]
  simp only [decoding, decodedValue_of_single hz]
  rfl

/-- A row with a payload, all of it there: two transfers, and the payload is the value (41_decode.md R80). -/
theorem exec_sentinel_of_fits {i : Instr} {b0 : Byte} {payload : List Byte} {s : State}
    (h : encode i = .wire (b0 :: payload)) (hz : payloadLen b0 ≠ 0) (hfit : s.off + wireLen b0 ≤ s.cap) :
    exec i s = .next { s with
      off := s.off + wireLen b0
      pending := s.pending.tail
      responses := s.responses ++ [⟨.ok, some (payloadValue payload), none⟩]
      bus := s.bus ++ [⟨1, false, true, [b0]⟩, ⟨BitVec.ofNat 4 (payloadLen b0), false, true, payload⟩] } := by
  rw [exec_of_encodingRead (encodingRead_of_encode s h), takeEncoding_of_inside (by omega),
    Transaction.after_of_fits (x := decoding b0 payload) s.mem hfit hz]
  simp only [decoding, decodedValue_of_payload hz, State.respond, State.transfer, List.append_assoc]
  rfl

/-- Settles O24: each sentinel with its payload, which is the operand widened. -/
theorem sentinelFormatsReturnTheirPayload : Obligations.SentinelFormatsReturnTheirPayload := by
  refine ⟨fun p s hfit => ?_, fun p s hfit => ?_, fun p s hfit => ?_⟩
  · have hrun := exec_sentinel_of_fits (i := .w3 p) rfl (by decide) hfit
    rwa [payloadValue_leBytes (by rw [BitVec.toNat_setWidth]; omega)] at hrun
  · have hrun := exec_sentinel_of_fits (i := .w5 p) rfl (by decide) hfit
    rwa [payloadValue_leBytes (by rw [BitVec.toNat_setWidth]; omega)] at hrun
  · have hrun := exec_sentinel_of_fits (i := .w9 p) rfl (by decide) hfit
    rwa [payloadValue_leBytes p.isLt] at hrun

/-! ### The textual form: numerals -/

/-- The decimal digits as `IsDecimalNumeral` writes them. -/
def decimalChar (d : Fin 10) : Char := ['0', '1', '2', '3', '4', '5', '6', '7', '8', '9'][d]

/-- The hexadecimal digits as `IsHexNumeral` writes them, the `Bool` their case. -/
def hexChar (d : Fin 16 × Bool) : Char :=
  if d.2 then ['0', '1', '2', '3', '4', '5', '6', '7', '8', '9', 'A', 'B', 'C', 'D', 'E', 'F'][d.1]
  else ['0', '1', '2', '3', '4', '5', '6', '7', '8', '9', 'a', 'b', 'c', 'd', 'e', 'f'][d.1]

theorem decimalChar_toNat : ∀ d, (decimalChar d).toNat = d.val + 48 := by decide

theorem hexChar_toNat : ∀ d, (hexChar d).toNat =
    if d.1.val < 10 then d.1.val + 48 else if d.2 then d.1.val + 55 else d.1.val + 87 := by decide

/-- Everything `digitValue` reads. -/
theorem digitValue_eq_some_iff {c : Char} {d : Nat} :
    digitValue c = some d ↔
      (d < 10 ∧ c.toNat = d + 48) ∨ (10 ≤ d ∧ d < 16 ∧ c.toNat = d + 55) ∨ (10 ≤ d ∧ d < 16 ∧ c.toNat = d + 87) := by
  simp only [digitValue]
  split_ifs <;> simp <;> omega

/-- The characters `char` with the values `val` are all the digits that `readDigits` takes in a base. -/
def DigitsOf {α : Type} (base : Nat) (char : α → Char) (val : α → Nat) : Prop :=
  ∀ c d, digitValue c = some d ∧ d < base ↔ ∃ a, c = char a ∧ d = val a

theorem decimal_digitsOf : DigitsOf 10 decimalChar Fin.val := by
  intro c d
  rw [digitValue_eq_some_iff]
  constructor
  · rintro ⟨h, hd⟩
    refine ⟨⟨d, hd⟩, Char.toNat_inj.mp ?_, rfl⟩
    rw [decimalChar_toNat]
    simp only
    omega
  · rintro ⟨a, rfl, rfl⟩
    exact ⟨.inl ⟨a.isLt, decimalChar_toNat a⟩, a.isLt⟩

theorem hex_digitsOf : DigitsOf 16 hexChar fun d => d.1.val := by
  intro c d
  rw [digitValue_eq_some_iff]
  constructor
  · rintro ⟨h, hd⟩
    refine ⟨(⟨d, hd⟩, decide (c.toNat = d + 55)), Char.toNat_inj.mp ?_, rfl⟩
    rw [hexChar_toNat]
    simp only [decide_eq_true_eq]
    split_ifs <;> omega
  · rintro ⟨a, rfl, rfl⟩
    have ha := a.1.isLt
    refine ⟨?_, ha⟩
    dsimp only
    rw [hexChar_toNat]
    split_ifs <;> omega

theorem readDigits_cons_eq_some_iff {base acc n : Nat} {c : Char} {cs : List Char} :
    readDigits base acc (c :: cs) = some n ↔
      ∃ d, (digitValue c = some d ∧ d < base) ∧ readDigits base (acc * base + d) cs = some n := by
  rw [readDigits]
  cases digitValue c with
  | none => simp
  | some d => by_cases hd : d < base <;> simp [hd]

/-- One digit more in front of a positional number. -/
theorem positional_cons (base acc d : Nat) (ds : List Nat) :
    acc * base ^ (d :: ds).length + Nat.ofDigits base (d :: ds).reverse =
      (acc * base + d) * base ^ ds.length + Nat.ofDigits base ds.reverse := by
  rw [Nat.ofDigits_reverse_cons, List.length_cons]
  ring

/-- `readDigits` reads the words over the digits of its base, at their positional number after `acc`. -/
theorem readDigits_eq_some_iff {α : Type} {base : Nat} {char : α → Char} {val : α → Nat}
    (h : DigitsOf base char val) {acc n : Nat} {word : List Char} :
    readDigits base acc word = some n ↔
      ∃ ds : List α, word = ds.map char ∧
        n = acc * base ^ (ds.map val).length + Nat.ofDigits base (ds.map val).reverse := by
  induction word generalizing acc with
  | nil =>
    constructor
    · rintro ⟨⟩
      exact ⟨[], rfl, by simp⟩
    · rintro ⟨ds, hds, rfl⟩
      obtain rfl := List.map_eq_nil_iff.mp hds.symm
      simp [readDigits]
  | cons c cs ih =>
    rw [readDigits_cons_eq_some_iff]
    simp only [h c, ih]
    constructor
    · rintro ⟨_, ⟨a, rfl, rfl⟩, ds, rfl, rfl⟩
      exact ⟨a :: ds, rfl, (positional_cons ..).symm⟩
    · rintro ⟨ds, hds, rfl⟩
      obtain ⟨a, ds, rfl, rfl, rfl⟩ := List.map_eq_cons_iff.mp hds.symm
      exact ⟨_, ⟨a, rfl, rfl⟩, ds, rfl, positional_cons ..⟩

theorem isDecimalNumeral_iff {word : List Char} {n : Nat} :
    IsDecimalNumeral word n ↔ word ≠ [] ∧ readDigits 10 0 word = some n := by
  rw [readDigits_eq_some_iff decimal_digitsOf]
  constructor
  · rintro ⟨ds, hne, hn, rfl⟩
    exact ⟨by simpa using hne, ds, rfl, by simpa using hn⟩
  · rintro ⟨hne, ds, rfl, hn⟩
    exact ⟨ds, by simpa using hne, by simpa using hn, rfl⟩

theorem isHexNumeral_iff {word : List Char} {n : Nat} :
    IsHexNumeral word n ↔ ∃ digits, word = '0' :: 'x' :: digits ∧ digits ≠ [] ∧ readDigits 16 0 digits = some n := by
  simp only [readDigits_eq_some_iff hex_digitsOf]
  constructor
  · rintro ⟨ds, hne, hn, rfl⟩
    exact ⟨ds.map hexChar, rfl, by simpa using hne, ds, rfl, by simpa using hn⟩
  · rintro ⟨_, rfl, hne, ds, rfl, hn⟩
    exact ⟨ds, by simpa using hne, by simpa using hn, rfl⟩

/-- `numeral` reads the numerals of 30_encoding.md R64 and nothing else: `x` is no decimal digit, so the two forms are
apart. -/
theorem numeral_eq_some_iff {word : List Char} {n : Nat} :
    numeral word = some n ↔ IsDecimalNumeral word n ∨ IsHexNumeral word n := by
  rw [isDecimalNumeral_iff, isHexNumeral_iff]
  unfold numeral
  split
  · next c cs =>
    have hx : readDigits 10 0 ('0' :: 'x' :: c :: cs) = none := rfl
    simp [hx]
  · next c cs hother =>
    have hhex : ∀ digits, c :: cs = '0' :: 'x' :: digits → digits = [] := by
      rintro (_ | ⟨d, digits⟩) ⟨⟩
      · rfl
      · exact (hother d digits rfl rfl).elim
    constructor
    · exact fun h => .inl ⟨List.cons_ne_nil _ _, h⟩
    · rintro (⟨-, h⟩ | ⟨digits, hword, hne, -⟩)
      · exact h
      · exact absurd (hhex digits hword) hne
  · simp

/-! ### The textual form: the words of a line -/

/-- A word of a line: not empty, and no character of it separates words or starts a comment. -/
def IsWord (word : List Char) : Prop := word ≠ [] ∧ ∀ c ∈ word, separates c = false ∧ c ≠ ';'

/-- What follows does not run into the word before it. -/
def EndsWord (rest : List Char) : Prop := (splitWords (withoutComment rest)).1 = []

theorem withoutComment_append {word rest : List Char} (h : ∀ c ∈ word, c ≠ ';') :
    withoutComment (word ++ rest) = word ++ withoutComment rest := by
  induction word with
  | nil => rfl
  | cons c cs ih =>
    obtain ⟨hc, hcs⟩ := List.forall_mem_cons.mp h
    simp [withoutComment, hc, ih hcs]

theorem splitWords_append {word rest : List Char} (h : ∀ c ∈ word, separates c = false) :
    splitWords (word ++ rest) = (word ++ (splitWords rest).1, (splitWords rest).2) := by
  induction word with
  | nil => rfl
  | cons c cs ih =>
    obtain ⟨hc, hcs⟩ := List.forall_mem_cons.mp h
    simp [splitWords, hc, ih hcs]

theorem lineWords_append {word rest : List Char} (hword : IsWord word) (hrest : EndsWord rest) :
    lineWords (word ++ rest) = word :: lineWords rest := by
  obtain ⟨hne, hchars⟩ := hword
  unfold EndsWord at hrest
  simp [lineWords, withoutComment_append fun c hc => (hchars c hc).2, splitWords_append fun c hc => (hchars c hc).1,
    hrest, hne]

theorem splitWords_space (cs : List Char) : splitWords (withoutComment (' ' :: cs)) = ([], lineWords cs) := by
  simp [withoutComment, splitWords, separates, lineWords]

theorem endsWord_space (cs : List Char) : EndsWord (' ' :: cs) := congrArg Prod.fst (splitWords_space cs)

theorem lineWords_space (cs : List Char) : lineWords (' ' :: cs) = lineWords cs := by
  rw [lineWords, splitWords_space]
  rfl

theorem lineWords_spaces (k : Nat) (cs : List Char) : lineWords (List.replicate k ' ' ++ cs) = lineWords cs := by
  induction k with
  | zero => rfl
  | succ k ih => rw [List.replicate_succ, List.cons_append, lineWords_space, ih]

theorem withoutComment_of_comment {comment : List Char} (h : comment = [] ∨ comment.head? = some ';') :
    withoutComment comment = [] := by
  rcases h with rfl | h
  · rfl
  · obtain ⟨cs, rfl⟩ := List.head?_eq_some_iff.mp h
    simp [withoutComment]

theorem lineWords_lineEnd {tail : List Char} (h : IsLineEnd tail) : lineWords tail = [] := by
  obtain ⟨k, comment, rfl, hcomment⟩ := h
  rw [lineWords_spaces, lineWords, withoutComment_of_comment hcomment]
  rfl

theorem endsWord_lineEnd {tail : List Char} (h : IsLineEnd tail) : EndsWord tail := by
  obtain ⟨k, comment, rfl, hcomment⟩ := h
  cases k with
  | zero => rw [EndsWord, List.replicate_zero, List.nil_append, withoutComment_of_comment hcomment]; rfl
  | succ k => exact endsWord_space _

/-- A line of one word. -/
theorem lineWords_name {name tail : List Char} (hname : IsWord name) (htail : IsLineEnd tail) :
    lineWords (name ++ tail) = [name] := by
  rw [lineWords_append hname (endsWord_lineEnd htail), lineWords_lineEnd htail]

/-- A line of a name and an operand. -/
theorem lineWords_operand {name word tail : List Char} (k : Nat) (hname : IsWord name) (hword : IsWord word)
    (htail : IsLineEnd tail) :
    lineWords (name ++ [' '] ++ List.replicate k ' ' ++ word ++ tail) = [name, word] := by
  simp only [List.append_assoc, List.cons_append, List.nil_append]
  rw [lineWords_append hname (endsWord_space _), lineWords_space, lineWords_spaces, lineWords_name hword htail]

theorem decimalChar_inWord : ∀ d, separates (decimalChar d) = false ∧ decimalChar d ≠ ';' := by decide

theorem hexChar_inWord : ∀ d, separates (hexChar d) = false ∧ hexChar d ≠ ';' := by decide

theorem isWord_of_numeral {word : List Char} {n : Nat} (h : IsDecimalNumeral word n ∨ IsHexNumeral word n) :
    IsWord word := by
  rcases h with ⟨ds, hne, -, rfl⟩ | ⟨ds, -, -, rfl⟩
  · exact ⟨by simpa using hne, List.forall_mem_map.mpr fun d _ => decimalChar_inWord d⟩
  · have hdigits : ∀ c ∈ ds.map hexChar, separates c = false ∧ c ≠ ';' :=
      List.forall_mem_map.mpr fun d _ => hexChar_inWord d
    exact ⟨List.cons_ne_nil _ _, List.forall_mem_cons.mpr ⟨by decide, List.forall_mem_cons.mpr ⟨by decide, hdigits⟩⟩⟩

/-! ### The textual form: the lines of the commands -/

theorem isWord_sizeof : IsWord ['S', 'I', 'Z', 'E', 'O', 'F'] := by simp [IsWord, separates]
theorem isWord_enc : IsWord ['E', 'N', 'C'] := by simp [IsWord, separates]
theorem isWord_dec : IsWord ['D', 'E', 'C'] := by simp [IsWord, separates]

theorem assembleLine_sizeof {line : List Char} {operands : List (List Char)}
    (h : lineWords line = ['S', 'I', 'Z', 'E', 'O', 'F'] :: operands) :
    assembleLine line = valueCommand 0b00#2 operands := by
  simp [assembleLine, h]

theorem assembleLine_enc {line : List Char} {operands : List (List Char)}
    (h : lineWords line = ['E', 'N', 'C'] :: operands) : assembleLine line = valueCommand 0b01#2 operands := by
  simp [assembleLine, h]

theorem assembleLine_dec {line : List Char} {operands : List (List Char)}
    (h : lineWords line = ['D', 'E', 'C'] :: operands) : assembleLine line = decCommand operands := by
  simp [assembleLine, h]

theorem valueCommand_of_past {op : BitVec 2} {word : List Char} {n : Nat} (h : numeral word = some n)
    (hn : 2 ^ 64 ≤ n) : valueCommand op [word] = .error .valueOutOfRange := by
  simp only [valueCommand, h, if_neg (Nat.not_lt.mpr hn)]

theorem valueCommand_of_inside {op : BitVec 2} {word : List Char} {v : Word} (h : numeral word = some v.toNat) :
    valueCommand op [word] = .ok (some (.command (commandWord op v))) := by
  simp only [valueCommand, h, if_pos v.isLt, BitVec.ofNat_toNat, BitVec.setWidth_eq]

/-- Settles O47: a numeral is one word of its line, `numeral` reads it, and the range decides. -/
theorem assemblerNeverTruncates : Obligations.AssemblerNeverTruncates := by
  refine ⟨fun _ _ => numeral_eq_some_iff, fun word tail n k hword htail => ?_, fun tail htail => ?_,
    fun v => ⟨rfl, rfl⟩, rfl⟩
  · have hnumeral := numeral_eq_some_iff.mpr hword
    have hisWord := isWord_of_numeral hword
    have hsizeof := assembleLine_sizeof (lineWords_operand k isWord_sizeof hisWord htail)
    have henc := assembleLine_enc (lineWords_operand k isWord_enc hisWord htail)
    refine ⟨fun hn => ?_, ?_⟩
    · exact ⟨hsizeof.trans (valueCommand_of_past hnumeral hn), henc.trans (valueCommand_of_past hnumeral hn)⟩
    · rintro v rfl
      exact ⟨hsizeof.trans (valueCommand_of_inside hnumeral), henc.trans (valueCommand_of_inside hnumeral)⟩
  · exact assembleLine_dec (lineWords_name isWord_dec htail)

end Sys2Proof.Proofs
end

section
/-! PROOFS. The family 40_encode.md. First the tier of a value: its first byte, its size and its canonical encoding;
then what the transaction of `ENC` leaves with all, some or none of the bytes it needs, and the statements. -/

namespace Sys2Proof.Proofs

open Sys2Proof.Machine

/-! ### The tier of a value -/

/-- Settles O7: the tier of a value decides its first byte, and a T1 byte is the value and no sentinel. -/
theorem prefixSelectByStrictThresholds : Obligations.PrefixSelectByStrictThresholds := by
  intro v
  rcases tier_cases v with ⟨ht, hv⟩ | ⟨ht, hv⟩ | ⟨ht, hv⟩ | ⟨ht, hv⟩ <;> simp only [prefixByte, ht]
  · have hbyte : (v.setWidth 8).toNat = v.toNat := by rw [BitVec.toNat_setWidth]; omega
    exact ⟨fun _ => ⟨trivial, hbyte, (single_byte_of_lt hv).2⟩, by omega, by omega, by omega, rfl, rfl, rfl, rfl⟩
  · exact ⟨by omega, fun _ _ => ⟨trivial, trivial⟩, by omega, by omega, rfl, rfl, rfl, rfl⟩
  · exact ⟨by omega, by omega, fun _ _ => ⟨trivial, trivial⟩, by omega, rfl, rfl, rfl, rfl⟩
  · exact ⟨by omega, by omega, by omega, fun _ => ⟨trivial, trivial⟩, rfl, rfl, rfl, rfl⟩

/-- A value with a payload has a sentinel for its first byte (40_encode.md R69). -/
theorem prefixByte_of_payload {v : Word} (h : payloadBytes (tier v) ≠ 0) :
    prefixByte v = 0xFD#8 ∨ prefixByte v = 0xFE#8 ∨ prefixByte v = 0xFF#8 := by
  cases ht : tier v with
  | t1 => rw [ht] at h; exact absurd rfl h
  | t2 | t3 | t4 => simp [prefixByte, ht]

/-- `SizeOf` and `Tier` compare with the same thresholds (42_sizeof.md R88, 40_encode.md R68). -/
theorem encodedSize_toNat (v : Word) : (encodedSize v).toNat = 1 + payloadBytes (tier v) := by
  unfold encodedSize tier
  split_ifs <;> rfl

/-- Serializing `n` bytes looks at no bit from `8n` on. -/
theorem leBytes_truncated {v : Word} {w n : Nat} (h : 8 * n ≤ w) :
    leBytes ((v.setWidth w).setWidth 64) n = leBytes v n := by
  refine List.ext_getElem (by simp) fun i hi _ => ?_
  rw [leBytes_length] at hi
  rw [leBytes_getElem, leBytes_getElem]
  ext j hj
  have hbit : 8 * i + j < w := by omega
  simpa [byteOf, hbit] using BitVec.lt_of_getLsbD

/-- The canonical encoding of a value is its first byte and its payload (40_encode.md R72). -/
theorem encode_canonicalFormat (v : Word) :
    encode (canonicalFormat v) = .wire (prefixByte v :: leBytes v (payloadBytes (tier v))) := by
  cases ht : tier v <;> simp only [canonicalFormat, prefixByte, ht]
  case t1 => exact encode_decodeW1 _
  case t2 => exact congrArg (fun bs => Encoding.wire (0xFD#8 :: bs)) (leBytes_truncated le_rfl)
  case t3 => exact congrArg (fun bs => Encoding.wire (0xFE#8 :: bs)) (leBytes_truncated le_rfl)
  case t4 => rfl

/-! ### The transaction of `ENC` by the bytes left -/

theorem Transaction.consumed_of_fits {x : Transaction} {r : Nat} (h : x.size ≤ r) : x.consumed r = x.size := if_pos h

theorem Transaction.consumed_of_cut {x : Transaction} {r : Nat} (h0 : 0 < r) (h : r < x.size) : x.consumed r = 1 :=
  (if_neg (Nat.not_le.mpr h)).trans (Nat.min_eq_right h0)

theorem Transaction.response_of_fits {x : Transaction} {r : Nat} (h : x.size ≤ r) : x.response r = x.done := if_pos h

theorem Transaction.response_of_short {x : Transaction} {r : Nat} (h : r < x.size) :
    x.response r = insufficientBufferResponse := if_neg (Nat.not_le.mpr h)

theorem memAfterEnc_of_full {v : Word} {m : Memory} {s : State} (h : remaining s = 0) : memAfterEnc v m s = m := by
  rw [memAfterEnc, h, bytesWritten_of_full, setBytes]

theorem memAfterEnc_of_cut {v : Word} {m : Memory} {s : State} (h0 : 0 < remaining s)
    (h : remaining s < (encoding v).size) : memAfterEnc v m s = setByte s.off (prefixByte v) m := by
  rw [memAfterEnc, bytesWritten_of_cut h0 h, setBytes, setBytes]

theorem memAfterEnc_of_fits {v : Word} {m : Memory} {s : State} (h : (encoding v).size ≤ remaining s) :
    memAfterEnc v m s = setBytes s.off (prefixByte v :: leBytes v (payloadBytes (tier v))) m := by
  rw [memAfterEnc, bytesWritten_of_fits h]

/-! ### The statements about `ENC` -/

/-- Settles O16: where it fits, `MEM` holds the canonical encoding at `OFF` as one written span. -/
theorem encWritesTheCanonicalEncoding : Obligations.EncWritesTheCanonicalEncoding := by
  rintro v s L rfl hin
  refine ⟨(encodedSize_toNat v).symm, fun hm hfit => ?_, fun hshort t h => ?_⟩
  · have hwhole : (encoding v).size ≤ remaining s := hfit
    have hmem := memAfterEnc_of_fits (m := s.mem) hwhole
    have hlen : (prefixByte v :: leBytes v _).length = 1 + payloadBytes (tier v) := encoding_length v
    refine ⟨_, execEnc_of_inside hin, ?_, fun i hi => ?_, fun a ha => ?_, ?_, ?_, rfl, rfl, ?_⟩ <;>
      simp only [byteAt, Transaction.after_mem, Transaction.after_off, Transaction.after_responses, hmem,
        Transaction.consumed_of_fits hwhole, Transaction.response_of_fits hwhole]
    · exact getByte_setBytes_inside (i := 0) hm (by simp)
    · rw [Nat.add_assoc, Nat.add_comm 1 i, getByte_setBytes_inside hm (by simp; omega)]
      exact leBytes_getElem _
    · exact getByte_setBytes_outside (by rwa [hlen])
    · rw [encode_canonicalFormat, ← hlen, getBytes_setBytes hm]
    · rfl
    · rfl
  · obtain ⟨-, rfl⟩ := execEnc_next h
    rw [Transaction.after_responses, Transaction.response_of_short hshort]
    simp [insufficientBufferResponse]

/-- Settles O17: with no byte left nothing is granted or written; with fewer than the encoding has, the write is the
one byte of the sentinel. -/
theorem encWithTooLittleRoomFails : Obligations.EncWithTooLittleRoomFails := by
  refine fun v s => ⟨fun hfull => ?_, fun hm hlt hshort => ?_⟩
  · have hrun := execEnc_of_inside (v := v) hfull.le
    rw [memAfterEnc_of_full ((remaining_eq_zero_iff hfull.le).mpr hfull), Transaction.after_of_full hfull.symm] at hrun
    exact hrun
  · have hsome : 0 < remaining s := Nat.sub_pos_of_lt hlt
    have hcut : remaining s < (encoding v).size := hshort
    refine ⟨_, execEnc_of_inside hlt.le, ?_, prefixByte_of_payload (by omega), fun a ha => ?_, ?_, rfl, rfl, ?_⟩ <;>
      simp only [byteAt, Transaction.after_mem, Transaction.after_off, Transaction.after_responses,
        memAfterEnc_of_cut hsome hcut, Transaction.consumed_of_cut hsome hcut, Transaction.response_of_short hcut]
    · exact getByte_setByte_same hm
    · exact getByte_setByte_of_ne ha
    · rfl

end Sys2Proof.Proofs
end

section
/-! PROOFS. The family 41_decode.md: the transaction of `DEC` with all of the bytes it needs, with none, and with the
first byte but too few for the payload. -/

namespace Sys2Proof.Proofs

open Sys2Proof.Machine

/-- With all its bytes left, a transaction moves `OFF` past them and answers its response. -/
theorem Transaction.after_of_whole {x : Transaction} {m : Memory} {s : State} (h : x.size ≤ remaining s) :
    x.after m s = { s with
      mem := m
      off := s.off + x.size
      pending := s.pending.tail
      responses := s.responses ++ [x.done]
      bus := s.bus ++ x.transfers (remaining s) } := by
  rw [Transaction.after, Transaction.consumed_of_fits h, Transaction.response_of_fits h]

/-- Settles O20: where the bytes fit, `DEC` leaves what its whole transaction leaves; where they do not, its one
response is the failure. -/
theorem decReturnsTheValueAtTheOffset : Obligations.DecReturnsTheValueAtTheOffset := by
  rintro s p L hin rfl rfl
  refine ⟨fun hfit => ?_, fun hshort t h r hr => ?_⟩
  · have hwhole : (decodingAt s).size ≤ remaining s := hfit
    have hpayload : wireLen (byteAt s s.off) - 1 = payloadLen (byteAt s s.off) := Nat.add_sub_cancel_left ..
    rw [execDec_of_inside hin, Transaction.after_of_whole hwhole,
      Transaction.transfers_eq_transfersOf (decodingAt_legal s).payload_length, hpayload]
    rfl
  · obtain ⟨-, rfl⟩ := execDec_next h
    rw [Transaction.after_responses, Transaction.response_of_short hshort] at hr
    obtain rfl : insufficientBufferResponse = r := by simpa using hr
    decide

/-- Settles O21: with no byte left the first transfer is denied; with fewer than the encoding has, the sentinel is read
and the payload's transfer denied. -/
theorem decWithTooFewBytesFails : Obligations.DecWithTooFewBytesFails := by
  refine fun s => ⟨fun hfull => ?_, fun hlt hshort => ?_⟩
  · rw [execDec_of_inside hfull.le, Transaction.after_of_full hfull.symm]
    rfl
  · have hcut : s.cap < s.off + (decodingAt s).size := (Nat.sub_lt_iff_lt_add' hlt.le).mp hshort
    rw [execDec_of_inside hlt.le, Transaction.after_of_cut s.mem hlt hcut]
    simp only [State.respond, State.transfer, List.append_assoc]
    rfl

end Sys2Proof.Proofs
end

section
/-! PROOFS. The family 42_sizeof.md. First the sizes; then the canonical bytes of a value and of a list of values; then
runs: the `ENC` commands of a list leave its bytes in `MEM` as one span, and `DEC` commands answer a list from any `MEM`
that holds its bytes at `OFF`. A round trip is the one, a seek, and the other. -/

namespace Sys2Proof.Proofs

open Sys2Proof.Machine

/-! ### The size of a value -/

/-- The first byte that `ENC` writes calls for the payload that `ENC` writes (42_sizeof.md R90). -/
theorem payloadLen_prefixByte (v : Word) : payloadLen (prefixByte v) = payloadBytes (tier v) := by
  rcases tier_cases v with ⟨ht, hv⟩ | ⟨ht, -⟩ | ⟨ht, -⟩ | ⟨ht, -⟩ <;> simp only [prefixByte, ht]
  · exact (single_byte_of_lt hv).2
  all_goals rfl

/-- Settles O8: the size is the tier's, and the tier is decided by the value as a number. -/
theorem sizeLookupByStrictThresholds : Obligations.SizeLookupByStrictThresholds := by
  refine fun v => ⟨?_, encodedSize_toNat v⟩
  rw [encodedSize_toNat]
  rcases tier_cases v with ⟨ht, hv⟩ | ⟨ht, hv⟩ | ⟨ht, hv⟩ | ⟨ht, hv⟩ <;> rw [ht, payloadBytes] <;> split_ifs <;> omega

/-- Settles O9: both lengths are one byte more than the payload of the value's tier. -/
theorem sizeIsWireLengthOfPrefix : Obligations.SizeIsWireLengthOfPrefix := fun v => by
  rw [encodedSize_toNat, wireLen, payloadLen_prefixByte]

/-- Settles O15: the meaning of `SIZEOF` is to give the response. -/
theorem sizeofAnswersTheSize : Obligations.SizeofAnswersTheSize :=
  ⟨fun v s => ⟨decodeCommand_commandWord 0b00#2 v, exec_sizeof v s⟩, rfl⟩

/-! ### `ENC` and the size -/

theorem encoding_response_ok_iff {v : Word} {r : Nat} :
    ((encoding v).response r).status = .ok ↔ (encoding v).size ≤ r := by
  by_cases h : (encoding v).size ≤ r
  · simp [Transaction.response_of_fits h, h, show (encoding v).done = okResponse from rfl, okResponse]
  · simp [Transaction.response_of_short (Nat.lt_of_not_le h), h, insufficientBufferResponse]

/-- Settles O18: the size is that of the transaction of `ENC`, which answers `OK`, moves `OFF` and sends lanes over its
whole size exactly when the bytes left hold it, and writes no byte past it in either case. -/
theorem encSucceedsExactlyWhenSizeFits : Obligations.EncSucceedsExactlyWhenSizeFits := by
  intro v s hin
  have hsize : (encodedSize v).toNat = (encoding v).size := encodedSize_toNat v
  rw [hsize]
  refine ⟨_, _, execEnc_of_inside hin, rfl, encoding_response_ok_iff, fun hok => ?_, fun a ha => ?_⟩
  · have hconsumed := Transaction.consumed_of_fits (encoding_response_ok_iff.mp hok)
    refine ⟨by rw [Transaction.after_off, hconsumed], _, rfl, ?_⟩
    rw [← List.length_flatMap, Transaction.transfers_lanes (encoding_legal v).payload_length]
    exact (bytesWritten_length v _).trans hconsumed
  · refine getByte_setBytes_outside ?_
    have hle := (encoding v).consumed_le_size (remaining s)
    rw [bytesWritten_length]
    omega

/-! ### The canonical bytes of values -/

/-- The canonical encoding of a value: the bytes of the wire format that `encode_canonicalFormat` gives it. -/
def canonicalBytes (v : Word) : List Byte := prefixByte v :: leBytes v (payloadBytes (tier v))

/-- The canonical encodings of a list of values, back to back. -/
def canonicalBytesAll (vs : List Word) : List Byte := vs.flatMap canonicalBytes

theorem encode_canonicalFormat_eq_canonicalBytes (v : Word) :
    encode (canonicalFormat v) = .wire (canonicalBytes v) := encode_canonicalFormat v

@[simp] theorem canonicalBytes_length (v : Word) : (canonicalBytes v).length = (encodedSize v).toNat :=
  (encoding_length v).trans (encodedSize_toNat v).symm

@[simp] theorem canonicalBytesAll_length (vs : List Word) : (canonicalBytesAll vs).length = totalSize vs := by
  simp [canonicalBytesAll, totalSize, List.length_flatMap]

theorem canonicalBytesAll_cons (v : Word) (vs : List Word) :
    canonicalBytesAll (v :: vs) = canonicalBytes v ++ canonicalBytesAll vs := List.flatMap_cons

theorem totalSize_cons (v : Word) (vs : List Word) : totalSize (v :: vs) = (encodedSize v).toNat + totalSize vs := by
  simp [totalSize]

/-- Two spans written one after the other are one written span. -/
theorem setBytes_append (a : Nat) (bs cs : List Byte) (m : Memory) :
    setBytes a (bs ++ cs) m = setBytes (a + bs.length) cs (setBytes a bs m) := by
  induction bs generalizing a m with
  | nil => rfl
  | cons b bs ih =>
    rw [List.cons_append, setBytes, ih, setBytes, List.length_cons, Nat.add_assoc, Nat.add_comm 1]

/-- A span is read as its two parts. -/
theorem getBytes_add (a j k : Nat) (m : Memory) : getBytes a (j + k) m = getBytes a j m ++ getBytes (a + j) k m := by
  induction j generalizing a with
  | zero => rw [Nat.zero_add]; rfl
  | succ j ih =>
    rw [Nat.add_right_comm, getBytes, ih, getBytes, List.cons_append, Nat.add_assoc, Nat.add_comm 1]

/-! ### A step on the canonical bytes -/

/-- A state some inputs later: what is in `MEM`, how far `OFF` has moved, what is still presented, the responses given
since and the record of the transfers. -/
def advanced (s : State) (m : Memory) (n : Nat) (rest : List Input) (rs : List Response)
    (bus : List Transfer) : State where
  mem := m
  off := s.off + n
  cap := s.cap
  pending := rest
  responses := s.responses ++ rs
  bus := bus

section

variable (s : State) (m : Memory) (n : Nat) (rest : List Input) (rs : List Response) (bus : List Transfer)

@[simp] theorem advanced_mem : (advanced s m n rest rs bus).mem = m := rfl
@[simp] theorem advanced_off : (advanced s m n rest rs bus).off = s.off + n := rfl
@[simp] theorem advanced_cap : (advanced s m n rest rs bus).cap = s.cap := rfl
@[simp] theorem advanced_pending : (advanced s m n rest rs bus).pending = rest := rfl
@[simp] theorem advanced_responses : (advanced s m n rest rs bus).responses = s.responses ++ rs := rfl

theorem advanced_nothing : advanced s s.mem 0 s.pending [] s.bus = s := by simp [advanced]

theorem advanced_advanced (m' : Memory) (n' : Nat) (rest' : List Input) (rs' : List Response) (bus' : List Transfer) :
    advanced (advanced s m n rest rs bus) m' n' rest' rs' bus' = advanced s m' (n + n') rest' (rs ++ rs') bus' := by
  simp [advanced, Nat.add_assoc]

variable {s n}

/-- What fits after `n` bytes more fits once they are passed. -/
theorem advanced_fits {k : Nat} (hin : s.off ≤ s.cap) (hfit : n + k ≤ remaining s) :
    s.off + n ≤ s.cap ∧ k ≤ remaining (advanced s m n rest rs bus) := by
  simp only [remaining, advanced_off, advanced_cap] at *
  omega

/-- The host's seek back to where `n` bytes began. -/
theorem step_seek_back (hin : s.off ≤ s.cap) (hn : s.off + n ≤ s.cap) :
    step (advanced s m n (.host (.seek s.off) :: rest) rs bus) = .next (advanced s m 0 rest rs bus) :=
  (step_seek hn rfl).trans (if_pos hin)

end

/-- With all its bytes left, a transaction advances the state by its size. -/
theorem after_eq_advanced {x : Transaction} {m : Memory} {s : State} (h : x.size ≤ remaining s) :
    x.after m s = advanced s m x.size s.pending.tail [x.done] (s.bus ++ x.transfers (remaining s)) :=
  Transaction.after_of_whole h

/-- The transaction of `DEC` where the canonical bytes of a value stand at `OFF`: it has their size and answers the
value. -/
theorem decodingAt_of_canonicalBytes {v : Word} {s : State}
    (h : getBytes s.off (encodedSize v).toNat s.mem = canonicalBytes v) :
    (decodingAt s).size = (encodedSize v).toNat ∧ (decodingAt s).done = resultResponse v := by
  rw [encodedSize_toNat, Nat.add_comm, getBytes, canonicalBytes, List.cons.injEq] at h
  obtain ⟨hfirst, hpayload⟩ := h
  have hdec : decodingAt s = decoding (prefixByte v) (leBytes v (payloadBytes (tier v))) := by
    rw [decodingAt, byteAt, hfirst, payloadLen_prefixByte, hpayload]
  rw [hdec]
  exact ⟨(sizeIsWireLengthOfPrefix v).symm, congrArg resultResponse (decodedPayloadIsTheValue v).2⟩

section

variable {v : Word} {s : State} {rest : List Input}

/-- A step with an `ENC` presented whose value fits. -/
theorem step_enc_of_fits (hin : s.off ≤ s.cap) (hfit : (encodedSize v).toNat ≤ remaining s)
    (hp : s.pending = encInput v :: rest) :
    ∃ bus, step s = .next (advanced s (setBytes s.off (canonicalBytes v) s.mem) (encodedSize v).toNat rest
      [okResponse] bus) := by
  rw [encodedSize_toNat] at hfit ⊢
  have hstep : step s = .next ((encoding v).after (memAfterEnc v s.mem s) s) := by
    rw [step_of_command hin hp, decodeCommand_commandWord]
    exact execEnc_of_inside hin
  have hwhole : (encoding v).size ≤ remaining s := hfit
  rw [after_eq_advanced hwhole, memAfterEnc_of_fits hwhole, hp] at hstep
  exact ⟨_, hstep⟩

/-- A step with `DEC` presented where the canonical bytes of a value stand at `OFF`. -/
theorem step_dec_of_canonicalBytes (hin : s.off ≤ s.cap) (hfit : (encodedSize v).toNat ≤ remaining s)
    (hbytes : getBytes s.off (encodedSize v).toNat s.mem = canonicalBytes v) (hp : s.pending = decInput :: rest) :
    ∃ bus, step s = .next (advanced s s.mem (encodedSize v).toNat rest [resultResponse v] bus) := by
  obtain ⟨hsize, hdone⟩ := decodingAt_of_canonicalBytes hbytes
  have hstep : step s = .next ((decodingAt s).after s.mem s) := by
    rw [step_of_command hin hp, decodeCommand_commandWord]
    exact execDec_of_inside hin
  rw [after_eq_advanced (hsize ▸ hfit), hsize, hdone, hp] at hstep
  exact ⟨_, hstep⟩

end

/-! ### Runs -/

/-- A run of no input gives the launch state. -/
theorem runInputs_zero_iff {s t : State} : runInputs 0 s = .next t ↔ s = t :=
  ⟨fun h => by cases h; rfl, fun h => h ▸ rfl⟩

/-- A run is its first step and the run from there. -/
theorem runInputs_succ_iff {k : Nat} {s t : State} :
    runInputs (k + 1) s = .next t ↔ ∃ u, step s = .next u ∧ runInputs k u = .next t := by
  have hcore : Sys2Proof.core.step s = step s := rfl
  simp only [runInputs, Host.Core.run, hcore]
  cases step s <;> simp

/-- A run is a shorter one and the run of the inputs left (70_reset_and_hazards.md R130). -/
theorem runInputs_add_iff {j k : Nat} {s t : State} :
    runInputs (j + k) s = .next t ↔ ∃ u, runInputs j s = .next u ∧ runInputs k u = .next t := by
  induction j generalizing s with
  | zero => simp [runInputs_zero_iff]
  | succ j ih =>
    rw [Nat.add_right_comm]
    simp only [runInputs_succ_iff, ih]
    constructor
    · rintro ⟨w, hw, u, hu, ht⟩
      exact ⟨u, ⟨w, hw, hu⟩, ht⟩
    · rintro ⟨u, ⟨w, hw, hu⟩, ht⟩
      exact ⟨w, hw, u, hu, ht⟩

section

variable {vs : List Word} {s : State} {rest : List Input}

/-- The `ENC` commands of a list of values that fits write its canonical bytes as one span. -/
theorem runInputs_encs (hin : s.off ≤ s.cap) (hfit : totalSize vs ≤ remaining s)
    (hp : s.pending = vs.map encInput ++ rest) :
    ∃ bus, runInputs vs.length s = .next (advanced s (setBytes s.off (canonicalBytesAll vs) s.mem) (totalSize vs) rest
      (vs.map fun _ => okResponse) bus) := by
  induction vs generalizing s with
  | nil =>
    obtain rfl : s.pending = rest := hp
    exact ⟨s.bus, runInputs_zero_iff.mpr (advanced_nothing s).symm⟩
  | cons v vs ih =>
    rw [totalSize_cons] at hfit
    obtain ⟨bus, hstep⟩ := step_enc_of_fits hin (Nat.le_of_add_right_le hfit) hp
    obtain ⟨hin', hfit'⟩ := advanced_fits (setBytes s.off (canonicalBytes v) s.mem) (vs.map encInput ++ rest)
      [okResponse] bus hin hfit
    obtain ⟨bus', hrun⟩ := ih hin' hfit' rfl
    refine ⟨bus', runInputs_succ_iff.mpr ⟨_, hstep, hrun.trans ?_⟩⟩
    rw [advanced_advanced, advanced_mem, advanced_off, canonicalBytesAll_cons, setBytes_append, canonicalBytes_length,
      totalSize_cons]
    rfl

/-- As many `DEC` commands answer a list of values whose canonical bytes stand at `OFF`. -/
theorem runInputs_decs (hin : s.off ≤ s.cap) (hfit : totalSize vs ≤ remaining s)
    (hbytes : getBytes s.off (totalSize vs) s.mem = canonicalBytesAll vs)
    (hp : s.pending = vs.map (fun _ => decInput) ++ rest) :
    ∃ bus, runInputs vs.length s = .next (advanced s s.mem (totalSize vs) rest (vs.map resultResponse) bus) := by
  induction vs generalizing s with
  | nil =>
    obtain rfl : s.pending = rest := hp
    exact ⟨s.bus, runInputs_zero_iff.mpr (advanced_nothing s).symm⟩
  | cons v vs ih =>
    rw [totalSize_cons, getBytes_add, canonicalBytesAll_cons] at hbytes
    obtain ⟨hfirst, hrest⟩ := List.append_inj hbytes (by simp)
    rw [totalSize_cons] at hfit
    obtain ⟨bus, hstep⟩ := step_dec_of_canonicalBytes hin (Nat.le_of_add_right_le hfit) hfirst hp
    obtain ⟨hin', hfit'⟩ := advanced_fits s.mem (vs.map (fun _ => decInput) ++ rest) [resultResponse v] bus hin hfit
    obtain ⟨bus', hrun⟩ := ih hin' hfit' hrest rfl
    refine ⟨bus', runInputs_succ_iff.mpr ⟨_, hstep, hrun.trans ?_⟩⟩
    rw [advanced_advanced, advanced_mem, totalSize_cons]
    rfl

/-- `ENC` commands, the seek back and as many `DEC` commands: `MEM` at the first `OFF` holds the bytes just written,
so they come back (42_sizeof.md R91, R92). -/
theorem runInputs_roundTrip (hin : s.off ≤ s.cap) (hm : s.mem.wf) (hfit : totalSize vs ≤ remaining s)
    (hp : s.pending = vs.map encInput ++ .host (.seek s.off) :: (vs.map (fun _ => decInput) ++ rest)) :
    ∃ u m bus, runInputs vs.length s = .next u ∧ u.off = s.off + totalSize vs ∧
      runInputs (vs.length + (vs.length + 1)) s = .next (advanced s m (totalSize vs) rest
        (vs.map (fun _ => okResponse) ++ vs.map resultResponse) bus) := by
  obtain ⟨bus, hencs⟩ := runInputs_encs hin hfit hp
  have hend : s.off + totalSize vs ≤ s.cap := (Nat.le_sub_iff_add_le' hin).mp hfit
  have hbytes : getBytes s.off (totalSize vs) (setBytes s.off (canonicalBytesAll vs) s.mem) = canonicalBytesAll vs := by
    simpa only [canonicalBytesAll_length] using getBytes_setBytes (bs := canonicalBytesAll vs) hm
  obtain ⟨bus', hdecs⟩ := runInputs_decs (s := advanced s _ 0 _ (vs.map fun _ => okResponse) bus) hin hfit hbytes rfl
  rw [advanced_advanced, Nat.zero_add] at hdecs
  have hback := runInputs_succ_iff.mpr ⟨_, step_seek_back _ _ _ _ hin hend, hdecs⟩
  exact ⟨_, _, bus', hencs, rfl, runInputs_add_iff.mpr ⟨_, hencs, hback⟩⟩

end

/-- Settles O44: the round trip of a list of one value. -/
theorem roundTripReturnsTheValue : Obligations.RoundTripReturnsTheValue := by
  intro v s rest hin hm hfit hp
  have htotal : totalSize [v] = (encodedSize v).toNat := List.sum_singleton
  obtain ⟨-, m, bus, -, -, hrun⟩ := runInputs_roundTrip (vs := [v]) hin hm (htotal.trans_le hfit) hp
  rw [htotal] at hrun
  exact ⟨_, hrun, rfl, rfl, rfl, rfl⟩

/-- Settles O45: the round trip of a list, with nothing presented after it. -/
theorem sequenceRoundTripReturnsTheValues : Obligations.SequenceRoundTripReturnsTheValues := by
  intro vs s hin hm hfit hp
  obtain ⟨u, m, bus, hencs, hoff, hrun⟩ :=
    runInputs_roundTrip (vs := vs) (rest := []) hin hm hfit (by rw [hp, List.append_nil])
  rw [Nat.add_comm _ 1, ← Nat.add_assoc] at hrun
  exact ⟨u, _, hencs, hoff, hrun, hoff.symm, (List.append_assoc ..).symm⟩

end Sys2Proof.Proofs
end

section
/-! PROOFS. The family 60_exceptions.md: a row cut short, the absence of faults, what a failed transaction leaves, and
runs on a full buffer. -/

namespace Sys2Proof.Proofs

open Sys2Proof.Machine

/-! ### A wire format cut short -/

/-- Settles O25: a row is the transaction of the bytes of its encoding, and the payload is the bytes after the first. -/
theorem wireFormatsCutShortFail : Obligations.WireFormatsCutShortFail := by
  intro i bytes s hwf h
  obtain ⟨b0, payload, rfl, hlen, -⟩ := format_of_encode hwf h
  have hrow : exec i s = takeEncoding b0 payload s := exec_of_encodingRead (encodingRead_of_encode s h)
  refine ⟨fun hfull => ?_, fun hlt hshort => ?_⟩
  · rw [hrow, takeEncoding_of_inside hfull.le, Transaction.after_of_full hfull.symm]
    rfl
  · have hsize : (b0 :: payload).length = (decoding b0 payload).size := by
      rw [List.length_cons, hlen, Nat.add_comm]
      rfl
    have hcut : s.cap < s.off + (decoding b0 payload).size := by omega
    rw [hrow, takeEncoding_of_inside hlt.le, Transaction.after_of_cut s.mem hlt hcut]
    simp only [State.respond, State.transfer, List.append_assoc, List.length_cons, hlen]
    rfl

/-! ### No fault -/

/-- A command is answered or refused: each of its accesses is to a span that was granted (20_memory.md R32). -/
theorem exec_ne_fault (i : Instr) (s : State) (f : Fault) : exec i s ≠ .fault f := by
  rcases instr_cases i s with ⟨v, rfl⟩ | ⟨v, rfl⟩ | rfl | ⟨b0, payload, hread⟩
  · simp [exec_sizeof]
  · rcases Nat.lt_or_ge s.cap s.off with hs | hs
    · simp [exec_enc, execEnc_of_past hs]
    · simp [exec_enc, execEnc_of_inside hs]
  · exact nofun
  · rcases Nat.lt_or_ge s.cap s.off with hs | hs
    · simp [exec_of_encodingRead hread, takeEncoding_of_past hs]
    · simp [exec_of_encodingRead hread, takeEncoding_of_inside hs]

/-- A host move happens or is refused. -/
theorem hostMove_ne_fault (move : HostMove) (s : State) (f : Fault) : hostMove move s ≠ .fault f := by
  cases move with
  | grow bytes => exact nofun
  | seek | fill | shrink | swap | peek =>
    simp only [hostMove]
    split <;> exact nofun

/-- Settles O27: a step runs a command or a host move, or is refused. -/
theorem nothingFaults : Obligations.NothingFaults := by
  refine ⟨exec_ne_fault, fun s f => ?_⟩
  unfold step
  cases fetch s with
  | instr i => exact exec_ne_fault i s f
  | move m => exact hostMove_ne_fault m s f
  | stop r => exact nofun

/-! ### What a failed transaction leaves -/

/-- A transaction whose own response is `OK` fails only for want of bytes; its response is then the one failure, and it
has consumed at most the first byte (60_exceptions.md R102, R103). -/
theorem Transaction.failed {x : Transaction} {m : Memory} {s : State} {r : Response} (hdone : x.done.status = .ok)
    (hresp : (x.after m s).responses = s.responses ++ [r]) (hr : r.status = .insufficientBuffer) :
    r = insufficientBufferResponse ∧ ((x.after m s).off = s.off ∨ (x.after m s).off = s.off + 1) := by
  obtain rfl : x.response (remaining s) = r := by simpa using hresp
  by_cases hfit : x.size ≤ remaining s
  · rw [response_of_fits hfit, hdone] at hr
    cases hr
  · refine ⟨response_of_short (Nat.lt_of_not_le hfit), ?_⟩
    rw [after_off, consumed, if_neg hfit]
    omega

/-- An `ENC` writes the bytes that `OFF` moves over, so one that consumes 0 or 1 byte writes none but that at the old
`OFF`. -/
theorem byteAt_after_enc_of_ne {v : Word} {m : Memory} {s : State} {a : Nat}
    (hoff : ((encoding v).after m s).off = s.off ∨ ((encoding v).after m s).off = s.off + 1) (ha : a ≠ s.off) :
    byteAt ((encoding v).after (memAfterEnc v s.mem s) s) a = byteAt s a := by
  refine getByte_setBytes_outside ?_
  rw [Transaction.after_off] at hoff
  rw [bytesWritten_length]
  omega

/-- Settles O29: `SIZEOF` does not fail, and every other command is one transaction. -/
theorem failureConsumesAtMostOneByte : Obligations.FailureConsumesAtMostOneByte := by
  intro i s t r h hresp hr
  rcases exec_next_cases h with ⟨v, -, rfl⟩ | ⟨v, -, -, rfl⟩ | ⟨b0, payload, -, -, rfl⟩
  · obtain rfl : sizeResponse (encodedSize v) = r := by simpa using hresp
    cases hr
  · obtain ⟨hfailure, hoff⟩ := Transaction.failed rfl hresp hr
    exact ⟨hfailure, hoff, fun _ ha => byteAt_after_enc_of_ne hoff ha⟩
  · obtain ⟨hfailure, hoff⟩ := Transaction.failed rfl hresp hr
    exact ⟨hfailure, hoff, fun _ _ => rfl⟩

/-! ### A full buffer -/

/-- A step with `DEC` or `ENC` presented and `OFF = CAP` fails and leaves the buffer. -/
theorem step_of_full {s : State} {x : Input} {rest : List Input} (hfull : s.off = s.cap) (hp : s.pending = x :: rest)
    (hx : x = decInput ∨ ∃ v, x = encInput v) :
    ∃ bus, step s = .next (advanced s s.mem 0 rest [insufficientBufferResponse] bus) := by
  have hrest : s.pending.tail = rest := by rw [hp, List.tail_cons]
  rcases hx with rfl | ⟨v, rfl⟩
  · have hstep : step s = exec .dec s := by
      rw [step_of_command hfull.le hp, decodeCommand_commandWord]
      rfl
    rw [hstep, (decWithTooFewBytesFails s).1 hfull, hrest]
    exact ⟨_, rfl⟩
  · have hstep : step s = exec (.enc v) s := by
      rw [step_of_command hfull.le hp, decodeCommand_commandWord]
      rfl
    rw [hstep, (encWithTooLittleRoomFails v s).1 hfull, hrest]
    exact ⟨_, rfl⟩

/-- A run of `DEC` and `ENC` from `OFF = CAP`: each step leaves `OFF = CAP` for the next. -/
theorem runInputs_of_full {inputs : List Input} {s : State} (hfull : s.off = s.cap) (hp : s.pending = inputs)
    (hx : ∀ x ∈ inputs, x = decInput ∨ ∃ v, x = encInput v) :
    ∃ bus, runInputs inputs.length s =
      .next (advanced s s.mem 0 [] (inputs.map fun _ => insufficientBufferResponse) bus) := by
  induction inputs generalizing s with
  | nil =>
    have hnothing := advanced_nothing s
    rw [hp] at hnothing
    exact ⟨s.bus, runInputs_zero_iff.mpr hnothing.symm⟩
  | cons x rest ih =>
    obtain ⟨hfirst, hlater⟩ := List.forall_mem_cons.mp hx
    obtain ⟨bus, hstep⟩ := step_of_full hfull hp hfirst
    obtain ⟨bus', hrun⟩ := ih (s := advanced s s.mem 0 rest [insufficientBufferResponse] bus) hfull rfl hlater
    rw [advanced_advanced] at hrun
    exact ⟨bus', runInputs_succ_iff.mpr ⟨_, hstep, hrun⟩⟩

/-- Settles O30: the run on a full buffer, by the state it ends in. -/
theorem fullBufferFailsEveryLaterCommand : Obligations.FullBufferFailsEveryLaterCommand := by
  intro inputs s hfull hp hx
  obtain ⟨bus, hrun⟩ := runInputs_of_full hfull hp hx
  exact ⟨_, hrun, rfl, rfl, rfl, rfl, rfl⟩

end Sys2Proof.Proofs
end

section
/-! PROOFS. The family 70_reset_and_hazards.md: a command inside the contract ends with one response, a run keeps what
every step keeps and takes one input a step, and the size that `SIZEOF` answers decides the `ENC` after it. -/

namespace Sys2Proof.Proofs

open Sys2Proof.Machine

/-! ### A command ends with one response -/

/-- Inside the capacity only the reserved code has no next state (60_exceptions.md R104). -/
theorem exec_next_of_inside {i : Instr} {s : State} (hs : s.off ≤ s.cap) (hi : i ≠ .reservedOp3) :
    ∃ t, exec i s = .next t := by
  rcases instr_cases i s with ⟨v, rfl⟩ | ⟨v, rfl⟩ | rfl | ⟨b0, payload, hread⟩
  · exact ⟨_, exec_sizeof v s⟩
  · exact ⟨_, execEnc_of_inside hs⟩
  · exact absurd rfl hi
  · exact ⟨_, (exec_of_encodingRead hread).trans (takeEncoding_of_inside hs)⟩

/-- A transaction answers with its own response or with the one failure, whatever the length of its payload: a W1 term
outside its row has a legal response too. -/
theorem Transaction.response_legal {x : Transaction} (hdone : x.done.legal) (r : Nat) : (x.response r).legal := by
  rcases Nat.lt_or_ge r x.size with hshort | hfit
  · exact response_of_short hshort ▸ .inr (.inl rfl)
  · exact response_of_fits hfit ▸ hdone

/-- A transaction consumes no more bytes than are left. -/
theorem Transaction.after_off_le_cap {x : Transaction} {m : Memory} {s : State} (hs : s.off ≤ s.cap) :
    (x.after m s).off ≤ (x.after m s).cap := by
  have hle : x.consumed (remaining s) ≤ s.cap - s.off := x.consumed_le_remaining (remaining s)
  rw [after_off, after_cap]
  omega

/-- Settles O28: every row but the reserved one has a next state, and that state is a response or one transaction. -/
theorem everyCommandAnswersOnce : Obligations.EveryCommandAnswersOnce := by
  intro i s hs hi
  obtain ⟨t, h⟩ := exec_next_of_inside hs hi
  rcases exec_next_cases h with ⟨v, -, rfl⟩ | ⟨v, -, -, rfl⟩ | ⟨b0, payload, -, -, rfl⟩
  · exact ⟨_, _, h, rfl, sizeResponse_legal v, rfl, hs, rfl⟩
  · exact ⟨_, _, h, rfl, (encoding_legal v).response _, rfl, Transaction.after_off_le_cap hs, rfl⟩
  · exact ⟨_, _, h, rfl, Transaction.response_legal (resultResponse_legal _) _, rfl,
      Transaction.after_off_le_cap hs, rfl⟩

/-! ### Runs -/

/-- What every step keeps, a run keeps. -/
theorem runInputs_keeps {P : State → Prop} (hstep : ∀ s t, P s → step s = .next t → P t) {k : Nat} {s t : State}
    (hs : P s) (h : runInputs k s = .next t) : P t := by
  induction k generalizing s with
  | zero => exact runInputs_zero_iff.mp h ▸ hs
  | succ k ih =>
    obtain ⟨u, hu, hrun⟩ := runInputs_succ_iff.mp h
    exact ih (hstep s u hs hu) hrun

/-- A run has taken one input a step, in order (70_reset_and_hazards.md R130). -/
theorem runInputs_pending {k : Nat} {s t : State} (h : runInputs k s = .next t) :
    t.pending = s.pending.drop k := by
  induction k generalizing s with
  | zero => exact runInputs_zero_iff.mp h ▸ rfl
  | succ k ih =>
    obtain ⟨u, hu, hrun⟩ := runInputs_succ_iff.mp h
    obtain ⟨x, hx, -⟩ := oneInputAStep s u hu
    rw [ih hrun, hx, List.drop_succ_cons]

/-- Settles O43: the run keeps the boundary invariant and takes every input, and a step with none is refused. -/
theorem runEndsWhenInputsAreExhausted : Obligations.RunEndsWhenInputsAreExhausted := by
  intro s t hs h
  have ht : t.Inv := runInputs_keeps everyStepKeepsTheBoundaryInvariant hs h
  have hpending : t.pending = [] := (runInputs_pending h).trans List.drop_length
  exact ⟨ht, hpending, step_of_idle ht.off_le_cap hpending⟩

/-! ### Pre-sizing -/

/-- A step with a `SIZEOF` presented gives the response and leaves the buffer (42_sizeof.md R87). -/
theorem step_sizeof {v : Word} {s : State} {rest : List Input} (hs : s.off ≤ s.cap)
    (hp : s.pending = sizeofInput v :: rest) : step s = .next (s.respond (sizeResponse (encodedSize v))) := by
  rw [step_of_command hs hp, decodeCommand_commandWord]
  exact exec_sizeof v s

/-- A step with an `ENC` presented, whether or not its value fits. -/
theorem step_enc {v : Word} {s : State} {rest : List Input} (hs : s.off ≤ s.cap)
    (hp : s.pending = encInput v :: rest) : step s = exec (.enc v) s := by
  rw [step_of_command hs hp, decodeCommand_commandWord]
  rfl

/-- Settles O46: `SIZEOF` leaves the remaining capacity, and `ENC` succeeds exactly when the size fits it. -/
theorem presizingPredictsEnc : Obligations.PresizingPredictsEnc := by
  intro v s rest hs hp
  have hsized := step_sizeof hs hp
  have hnext : (s.respond (sizeResponse (encodedSize v))).pending = encInput v :: rest := by
    rw [State.respond_pending, hp, List.tail_cons]
  obtain ⟨t, r, henc, hresp, hok, -⟩ := encSucceedsExactlyWhenSizeFits v (s.respond (sizeResponse (encodedSize v))) hs
  have hrun : runInputs 2 s = .next t :=
    runInputs_succ_iff.mpr ⟨_, hsized, runInputs_succ_iff.mpr ⟨t, (step_enc (s := s.respond _) hs hnext).trans henc,
      runInputs_zero_iff.mpr rfl⟩⟩
  refine ⟨t, encodedSize v, r, hrun, ?_, hok⟩
  rw [hresp, State.respond_responses, List.append_assoc]
  rfl

end Sys2Proof.Proofs
end

section
/-! PROOFS. The reset state is a command boundary: the base case whose step is `everyStepKeepsTheBoundaryInvariant`. -/

namespace Sys2Proof.Proofs

open Sys2Proof.Machine

/-- At reset `OFF` and `CAP` are equal, `MEM` has no byte, and nothing was answered or transferred. -/
theorem reset_inv : State.reset.Inv where
  off_le_cap := Nat.le_refl _
  mem_wf := Memory.wf_nil
  mem_lt_cap := List.forall_mem_nil _
  responses_legal := List.forall_mem_nil _
  bus_legal := List.forall_mem_nil _

/-- Settles O42: the invariant at reset is `reset_inv`; the response list, `OFF` and `CAP` are read off the reset state. -/
theorem resetIsACommandBoundary : Obligations.ResetIsACommandBoundary :=
  ⟨reset_inv, rfl, rfl, rfl⟩

end Sys2Proof.Proofs
end
